-- ==== Sys2Proof/Word.lean ====
section
/-! DEFINITION. The widths of NSCFC-1 (00_scope.md R5, R6; 10_state.md R10): every value of the block is an
unsigned integer of a stated width, so each is a bit vector of exactly that width. -/

namespace Sys2Proof

/-- A plaintext nibble (R5: NW = 4). -/
abbrev Nibble := BitVec 4

/-- A byte: a raw byte of the wire, a cipher byte or a magnitude byte (R9, R41). -/
abbrev Byte := BitVec 8

/-- An integer operand or result (R5: VW = 24). -/
abbrev Magnitude := BitVec 24

/-- A command word (R5: CWW = 32), and what the read port returns (R29). -/
abbrev Word := BitVec 32

/-- A register number of the host's read port, 0 to 63 (R30). -/
abbrev RegNum := BitVec 6

end Sys2Proof
end

