-- ==== Sys2Proof/Syntax.lean ====
section
/-! DEFINITION. The operations of NSCFC-1 (30_encoding.md R63: ten opcodes) and the assembler's lines (R70, R71). -/

namespace Sys2Proof

/-- One operation, with its operands at exactly the width of their fields (R61, R62: "no operand can be out of range
once the zero bits are zero"). One constructor per row of spec/opcode_table.json. -/
inductive Instr where
  /-- ENCN n: encode one nibble (40_nibble_cipher.md R83). -/
  | encn (n : Nibble)
  /-- DECB b: decode one cipher byte (40_nibble_cipher.md R84). -/
  | decb (b : Byte)
  /-- ENCI v: encode an integer (41_integer_packing.md R94). -/
  | enci (v : Magnitude)
  /-- DECI: decode the input buffer as one integer (41_integer_packing.md R95). -/
  | deci
  /-- BCMD reg, plen: build a command frame with an explicit payload length (42_frame_codec.md R103). -/
  | bcmd (reg plen : Byte)
  /-- QCMD reg: build the query for a register id with the catalog's length (42_frame_codec.md R104). -/
  | qcmd (reg : Byte)
  /-- PFRM: parse the input buffer as one frame (42_frame_codec.md R110). -/
  | pfrm
  /-- PUSH b: append one byte to the input buffer (43_buffer_control.md R120). -/
  | push (b : Byte)
  /-- CLRI: empty the input buffer (43_buffer_control.md R121). -/
  | clri
  /-- CLRF: clear the fault log (43_buffer_control.md R122). -/
  | clrf
  deriving DecidableEq, Repr

/-- One line of assembler (R70: a mnemonic and its operands as written numbers; R71: three pseudo-instructions). -/
inductive Asm where
  | encn (n : Nat)
  | decb (b : Nat)
  | enci (v : Nat)
  | deci
  | bcmd (reg plen : Nat)
  | qcmd (reg : Nat)
  | pfrm
  | push (b : Nat)
  | clri
  | clrf
  /-- LOAD b0 b1 ...: place a buffer in IBUF (R71). -/
  | load (bytes : List Nat)
  /-- PARSE b0 b1 ...: the source's decode(raw) (R71). -/
  | parse (bytes : List Nat)
  /-- DECODE b0 b1 ...: the source's decode_integer(scrambled) (R71). -/
  | decode (bytes : List Nat)
  deriving DecidableEq, Repr

end Sys2Proof
end

