-- ==== Sys2Proof/WellFormed.lean ====
section
/-! DEFINITION. Which assembler lines stand for command words: those whose written numbers fit their fields
(30_encoding.md R61, R62, R70). A term of Instr needs no check: its operands have the width of their fields, so every
one is well formed. -/

namespace Sys2Proof

/-- A written number that fits a field of w bits (R62: unsigned, used as it stands). -/
def fitsField (w n : Nat) : Bool := decide (n < 2 ^ w)

/-- Every operand of the line fits its field: n in 4 bits; b, reg and plen in 8; v in 24 (R61, R62). -/
def Asm.wellFormed : Asm → Bool
  | .encn n => fitsField 4 n
  | .decb b => fitsField 8 b
  | .enci v => fitsField 24 v
  | .bcmd reg plen => fitsField 8 reg && fitsField 8 plen
  | .qcmd reg => fitsField 8 reg
  | .push b => fitsField 8 b
  | .deci => true
  | .pfrm => true
  | .clri => true
  | .clrf => true
  | .load bytes => bytes.all (fitsField 8)
  | .parse bytes => bytes.all (fitsField 8)
  | .decode bytes => bytes.all (fitsField 8)

end Sys2Proof
end

