-- ==== Sys2Proof/Decode.lean ====
section
/-! DEFINITION. The command word: decoder, encoder, opcode rows and assembler (30_encoding.md R60 to R64, R70, R71).
Decoding is total: every one of the 2^32 words gives one operation or a rejection by name. -/

namespace Sys2Proof

/-- Why a command word selects no operation (R64). Both raise IllegalCommand. -/
inductive Reject where
  /-- CW[31:28] is 0 or B to F. -/
  | unassignedOpcode (op : Nibble)
  /-- The opcode is assigned and a bit its format marks "zero" is 1. -/
  | reservedBit (op : Nibble)
  deriving DecidableEq, Repr

/-- The opcode field, always CW[31:28] (R61). -/
def opField (cw : Word) : Nibble := cw.extractLsb' 28 4

/-- The operation, provided the bits the format marks "zero" are 0 (R61, R64). -/
def whenZero {k : Nat} (zero : BitVec k) (op : Nibble) (i : Instr) : Except Reject Instr :=
  if zero = 0 then .ok i else .error (.reservedBit op)

/-- Format Z: CW[27:0] zero (R61). -/
def decodeZ (cw : Word) (i : Instr) : Except Reject Instr :=
  whenZero (cw.extractLsb' 0 28) (opField cw) i

/-- Format N: CW[27:4] zero, n = CW[3:0] (R61). -/
def decodeN (cw : Word) (f : Nibble → Instr) : Except Reject Instr :=
  whenZero (cw.extractLsb' 4 24) (opField cw) (f (cw.extractLsb' 0 4))

/-- Format B: CW[27:8] zero, b = CW[7:0] (R61). -/
def decodeB (cw : Word) (f : Byte → Instr) : Except Reject Instr :=
  whenZero (cw.extractLsb' 8 20) (opField cw) (f (cw.extractLsb' 0 8))

/-- Format R: CW[27:16] zero, plen = CW[15:8], reg = CW[7:0] (R61). -/
def decodeR (cw : Word) (f : Byte → Byte → Instr) : Except Reject Instr :=
  whenZero (cw.extractLsb' 16 12) (opField cw) (f (cw.extractLsb' 0 8) (cw.extractLsb' 8 8))

/-- Format I: CW[27:24] zero, v = CW[23:0] (R61). -/
def decodeI (cw : Word) (f : Magnitude → Instr) : Except Reject Instr :=
  whenZero (cw.extractLsb' 24 4) (opField cw) (f (cw.extractLsb' 0 24))

/-- The opcode map (R63) and the illegal words (R64). -/
def decode (cw : Word) : Except Reject Instr :=
  match (opField cw).toNat with
  | 0x1 => decodeN cw .encn
  | 0x2 => decodeB cw .decb
  | 0x3 => decodeI cw .enci
  | 0x4 => decodeZ cw .deci
  | 0x5 => decodeR cw .bcmd
  | 0x6 => decodeB cw .qcmd
  | 0x7 => decodeZ cw .pfrm
  | 0x8 => decodeB cw .push
  | 0x9 => decodeZ cw .clri
  | 0xA => decodeZ cw .clrf
  | _ => .error (.unassignedOpcode (opField cw))

/-- Format Z as it is laid out, bit 31 first (R61). -/
def formZ (op : Nibble) : Word := op ++ 0#28

/-- Format N as it is laid out, bit 31 first (R61). -/
def formN (op n : Nibble) : Word := op ++ 0#24 ++ n

/-- Format B as it is laid out, bit 31 first (R61). -/
def formB (op : Nibble) (b : Byte) : Word := op ++ 0#20 ++ b

/-- Format R as it is laid out, bit 31 first: plen above reg (R61). -/
def formR (op : Nibble) (reg plen : Byte) : Word := op ++ 0#12 ++ plen ++ reg

/-- Format I as it is laid out, bit 31 first (R61). -/
def formI (op : Nibble) (v : Magnitude) : Word := op ++ 0#4 ++ v

/-- The command word of an operation (R61, R63). -/
def encode : Instr → Word
  | .encn n => formN 0x1 n
  | .decb b => formB 0x2 b
  | .enci v => formI 0x3 v
  | .deci => formZ 0x4
  | .bcmd reg plen => formR 0x5 reg plen
  | .qcmd reg => formB 0x6 reg
  | .pfrm => formZ 0x7
  | .push b => formB 0x8 b
  | .clri => formZ 0x9
  | .clrf => formZ 0xA

/-- A row of the opcode map as match and mask over the 32-bit word (R63). -/
structure OpRow where
  mnemonic : String
  value : Word
  mask : Word
  deriving DecidableEq, Repr

/-- A word selects a row when word & mask = match (R63). -/
def OpRow.selects (r : OpRow) (cw : Word) : Bool := decide (cw &&& r.mask = r.value)

/-- The ten rows, match / mask as R63 lists them. -/
def opRows : List OpRow :=
  [ ⟨"ENCN", 0x10000000, 0xFFFFFFF0⟩,
    ⟨"DECB", 0x20000000, 0xFFFFFF00⟩,
    ⟨"ENCI", 0x30000000, 0xFF000000⟩,
    ⟨"DECI", 0x40000000, 0xFFFFFFFF⟩,
    ⟨"BCMD", 0x50000000, 0xFFFF0000⟩,
    ⟨"QCMD", 0x60000000, 0xFFFFFF00⟩,
    ⟨"PFRM", 0x70000000, 0xFFFFFFFF⟩,
    ⟨"PUSH", 0x80000000, 0xFFFFFF00⟩,
    ⟨"CLRI", 0x90000000, 0xFFFFFFFF⟩,
    ⟨"CLRF", 0xA0000000, 0xFFFFFFFF⟩ ]

/-- A command word is legal when it matches some row (R64). -/
def legalWord (cw : Word) : Bool := opRows.any (fun r => r.selects cw)

/-- The mnemonic of an operation, as R63 and R70 write it. -/
def Instr.mnemonic : Instr → String
  | .encn _ => "ENCN"
  | .decb _ => "DECB"
  | .enci _ => "ENCI"
  | .deci => "DECI"
  | .bcmd _ _ => "BCMD"
  | .qcmd _ => "QCMD"
  | .pfrm => "PFRM"
  | .push _ => "PUSH"
  | .clri => "CLRI"
  | .clrf => "CLRF"

/-- LOAD: CLRI, then one PUSH per byte in order (R71). -/
def loadSeq (bytes : List Byte) : List Instr := .clri :: bytes.map .push

/-- PARSE: LOAD, then PFRM (R71). -/
def parseSeq (bytes : List Byte) : List Instr := loadSeq bytes ++ [.pfrm]

/-- DECODE: LOAD, then DECI (R71). -/
def decodeSeq (bytes : List Byte) : List Instr := loadSeq bytes ++ [.deci]

/-- The written bytes of a pseudo-instruction as bytes. -/
def asmBytes (bytes : List Nat) : List Byte := bytes.map (BitVec.ofNat 8)

/-- The operations an assembler line stands for (R70, R71). -/
def Asm.instrs : Asm → List Instr
  | .encn n => [.encn (BitVec.ofNat 4 n)]
  | .decb b => [.decb (BitVec.ofNat 8 b)]
  | .enci v => [.enci (BitVec.ofNat 24 v)]
  | .deci => [.deci]
  | .bcmd reg plen => [.bcmd (BitVec.ofNat 8 reg) (BitVec.ofNat 8 plen)]
  | .qcmd reg => [.qcmd (BitVec.ofNat 8 reg)]
  | .pfrm => [.pfrm]
  | .push b => [.push (BitVec.ofNat 8 b)]
  | .clri => [.clri]
  | .clrf => [.clrf]
  | .load bytes => loadSeq (asmBytes bytes)
  | .parse bytes => parseSeq (asmBytes bytes)
  | .decode bytes => decodeSeq (asmBytes bytes)

/-- The command words of an assembler line; none when an operand does not fit its field (R62, R70, R71). -/
def Asm.assemble (a : Asm) : Option (List Word) :=
  if a.wellFormed then some (a.instrs.map encode) else none

/-- The word whose low nbits bits are w's, every bit above them 0. -/
def tableWord (nbits w : Nat) : Word := BitVec.ofNat 32 (w % 2 ^ nbits)

/-- The operation the decoder reads from a word given as spec/opcode_table.json numbers its bits. -/
def decodeTableWord (nbits w : Nat) : Option Instr :=
  match decode (tableWord nbits w) with
  | .ok i => some i
  | .error _ => none

end Sys2Proof
end

