-- ==== Sys2Proof/Machine/Params.lean ====
section
/-! DEFINITION. The parameters of NSCFC-1 that have one value (00_scope.md R5) and its constant tables (10_state.md
R28: "constants of the block, not state"), kept in one file (91_not_in_source.md N18). -/

namespace Sys2Proof.Machine

/-- SBOX, nibble to cipher byte, index 0 first (40_nibble_cipher.md R80). -/
def sboxTable : Vector Byte 16 :=
  #v[0x29, 0x28, 0x2B, 0x2A, 0x2D, 0x2C, 0x2F, 0x2E, 0x21, 0x20, 0x58, 0x5B, 0x5A, 0x5D, 0x5C, 0x5F]

/-- INV, the sixteen legal cipher bytes with their nibbles, sorted by byte (30_encoding.md R65). -/
def invTable : List (Byte × Nibble) :=
  [ (0x20, 9), (0x21, 8), (0x28, 1), (0x29, 0), (0x2A, 3), (0x2B, 2), (0x2C, 5), (0x2D, 4),
    (0x2E, 7), (0x2F, 6), (0x58, 10), (0x5A, 12), (0x5B, 11), (0x5C, 14), (0x5D, 13), (0x5F, 15) ]

/-- CMD_HEAD, the preamble of every command frame, byte 0 first (R5; 30_encoding.md R66). -/
def cmdHeadBytes : List Byte := [0x32, 0x4B, 0x28, 0x2F]

/-- TAIL_OK, the trailer of a valid frame, in this order (R5; 42_frame_codec.md R107). -/
def tailOk : List Byte := [0x14, 0x13]

/-- MINLEN, the least length the parser accepts (R5). -/
def minLen : Nat := 8

/-- KMAX, the greatest number of magnitude bytes (R5). -/
def kMax : Nat := 3

/-- LMAX, the capacity of the input buffer and the longest frame (R5). -/
def lMax : Nat := minLen + 2 * kMax

/-- The greatest value of ILEN, at which it saturates (10_state.md R16). -/
def ilenMax : Nat := 255

/-- REG_MAX, the greatest register id of the data model (R5). -/
def regMax : Nat := 63

/-- CELL_BASE, the first cell-voltage register id (R5). -/
def cellBase : Nat := 49

/-- The seven catalog ids with their payload lengths (42_frame_codec.md R101). -/
def catalogLengths : List (Nat × Nat) := [(8, 2), (9, 2), (10, 3), (13, 1), (15, 3), (23, 2), (24, 3)]

/-- The payload length of a cell-voltage register (42_frame_codec.md R101). -/
def cellLength : Nat := 2

end Sys2Proof.Machine
end

