-- ==== Sys2Proof/Config.lean ====
section
/-! DEFINITION. The free values of the model: what the spec leaves unspecified and a model must not constrain
(93_implementation_defined.md U4, U6). Each is an opaque constant with no body, so nothing about its value can be
proved; see assumptions 1, 2 and 3. The parameters that have values (SBOX, CMD_HEAD, ...) stand in
Machine/Params.lean. -/

namespace Sys2Proof.Config

/-- NIB after a reset (R33, R170, U4): a free value of the reset's number and of what NIB held before it
("a realisation may clear them, keep them or fill them with anything"). -/
opaque resetNib : Nat → Nibble → Nibble

/-- RREG after a reset (R33, R170, U4). -/
opaque resetRreg : Nat → Byte → Byte

/-- RVAL after a reset (R33, R170, U4). -/
opaque resetRval : Nat → Magnitude → Magnitude

/-- RHEAD after a reset (R33, R170, U4). -/
opaque resetRhead : Nat → Word → Word

/-- RTAIL after a reset (R33, R170, U4). -/
opaque resetRtail : Nat → BitVec 16 → BitVec 16

/-- IBUF[i] after a reset (R33, R170, U4): reset's number, index, byte held before. -/
opaque resetIbuf : Nat → Nat → Byte → Byte

/-- OBUF[i] after a reset (R33, R170, U4): reset's number, index, byte held before. -/
opaque resetObuf : Nat → Nat → Byte → Byte

/-- What the read port returns for an unassigned register number (R30, R48, U6): a free value of the number of
state-changing host actions so far and of the register number, so that two reads between two command words agree
(R46). -/
opaque unassignedRead : Nat → RegNum → Word

end Sys2Proof.Config
end

