-- ==== Sys2Proof/Machine/State.lean ====
section
/-! DEFINITION. The state of NSCFC-1 (10_state.md R10), the host's three actions on it (50_host_protocol.md R130) and
the state at power-on (70_reset_and_hazards.md R170). -/

namespace Sys2Proof.Machine

/-- What stops the machine for good: nothing. "The block never stops, hangs or needs a reset because of a fault"
(60_exceptions.md R160). The six faults of the spec are not stops: raising one is a next state (R159), and their names
are the constructors of FaultKind. The type has no constructor, so no step can answer a fault. -/
inductive Fault where
  deriving DecidableEq, Repr

/-- Why an operation has no meaning in the model. -/
inductive Refusal where
  /-- An operation that has not been given its meaning. Raised by an arm of exec only; safe, since it stops the run.
  No arm raises it. -/
  | notModelled (mnemonic : String)
  deriving DecidableEq, Repr

/-- The six faults of the block (60_exceptions.md R150). -/
inductive FaultKind where
  /-- A byte to be decoded is not one of the 16 cipher bytes (R151). -/
  | invalidCipherByte
  /-- The buffer to parse has fewer than 8 bytes (R152). -/
  | frameTooShort
  /-- A cipher-byte field has odd length (R153). -/
  | oddLengthInput
  /-- The register id has no declared payload length (R154). -/
  | unknownRegister
  /-- The buffer has more bytes than the operation can take (R155). -/
  | tooLong
  /-- The command word selects no operation (R156). -/
  | illegalCommand
  deriving DecidableEq, Repr

/-- A raise with its two info values (00_scope.md R8, 60_exceptions.md R159). -/
structure Raised where
  kind : FaultKind
  idx : Byte
  byte : Byte
  deriving DecidableEq, Repr

/-- The three things the host can do to the block (50_host_protocol.md R130). -/
inductive HostAction where
  /-- Assert reset (R170). -/
  | reset
  /-- Issue a command word (R50, R60). -/
  | command (cw : Word)
  /-- Read a register by number (R29, R30). -/
  | read (n : RegNum)
  deriving DecidableEq, Repr

/-- The registers of R10, each at its width, and three fields of the model's own: the host's coming actions, the value
the read port last gave, and the count that numbers free values (assumptions 3, 4, 5). CMDHEAD (register 12) is
hardwired, so it has no storage: it is the constant State.cmdhead of Machine/Ops.lean (R25). -/
structure State where
  /-- STATUS, register 0: fault code of the most recent command word (R13). -/
  status : BitVec 4
  /-- FINFO, register 1: IDX in bits 15:8, BYTE in bits 7:0 (R14). -/
  finfo : BitVec 16
  /-- FLOG, register 2: sticky log, bit c for fault code c (R15). -/
  flog : BitVec 7
  /-- ILEN, register 3: PUSHes since the last CLRI, saturating at 255 (R16). -/
  ilen : Byte
  /-- OLEN, register 4: valid bytes of OBUF (R17). -/
  olen : BitVec 4
  /-- NIB, register 5: result of DECB (R18). -/
  nib : Nibble
  /-- RREG, register 6: device register id of the last parsed frame (R19). -/
  rreg : Byte
  /-- RVAL, register 7: result of DECI or value of the last parsed frame (R20). -/
  rval : Magnitude
  /-- RK, register 8: magnitude bytes behind RVAL (R21). -/
  rk : BitVec 2
  /-- RHEAD, register 9: head of the last parsed frame (R22). -/
  rhead : Word
  /-- RTAIL, register 10: trailer of the last parsed frame (R23). -/
  rtail : BitVec 16
  /-- RFLG, register 11: TVALID bit 0, LENOK bit 1, RCLS bits 3:2 (R24). -/
  rflg : BitVec 4
  /-- OBUF, registers 16 to 23 (R27). -/
  obuf : Vector Byte 8
  /-- IBUF, registers 32 to 45 (R26). -/
  ibuf : Vector Byte 14
  /-- The model's own: the host's actions still to come, in the order issued (R50, R130; assumption 4). -/
  pending : List HostAction
  /-- The model's own: what the read port returned for the most recent host read, none before the first (R29, R30;
  assumption 5). -/
  reply : Option Word
  /-- The model's own: how many state-changing host actions (resets and command words) have been taken. It numbers the
  draws of Config's free values (assumption 3). -/
  epoch : Nat
  deriving DecidableEq, Repr

/-- Power-on, which is reset (R10's last column, R33, R170): the control registers 0, the data registers and the buffer
bytes the free values of reset number 0 (assumption 1). No host action is waiting (assumption 4). -/
def State.reset : State where
  status := 0
  finfo := 0
  flog := 0
  ilen := 0
  olen := 0
  nib := Config.resetNib 0 0
  rreg := Config.resetRreg 0 0
  rval := Config.resetRval 0 0
  rk := 0
  rhead := Config.resetRhead 0 0
  rtail := Config.resetRtail 0 0
  rflg := 0
  obuf := Vector.ofFn (fun i => Config.resetObuf 0 i 0)
  ibuf := Vector.ofFn (fun i => Config.resetIbuf 0 i 0)
  pending := []
  reply := none
  epoch := 0

end Sys2Proof.Machine
end

