-- ==== Sys2Proof/Machine/Operands.lean ====
section
/-! DEFINITION. The pure functions under the operations: the cipher (40_nibble_cipher.md R80, R81), integer packing
(41_integer_packing.md R90 to R92), the payload-length table (42_frame_codec.md R101), the serialiser and the parser
(R102, R105), and the operand that DECI and PFRM take from the input buffer. A function that reaches a raise answers
it, and the calling operation raises (00_scope.md R8). -/

namespace Sys2Proof.Machine

/-- A raise with both info values given as numbers of at most 8 bits (R159). -/
def raised (kind : FaultKind) (idx : Nat) (byte : Byte) : Raised := ⟨kind, BitVec.ofNat 8 idx, byte⟩

/-- enc(n) = SBOX[n] (R80). One table, a constant; dec undoes it and it undoes dec (R82, CipherLaws). -/
def sbox (n : Nibble) : Byte := sboxTable[n.toNat]'n.isLt

/-- INV(b), defined on the sixteen legal bytes only (R65, R81). -/
def inv (b : Byte) : Option Nibble := invTable.lookup b

/-- The inverse laws of the cipher (R82): decoding undoes encoding on every nibble, and encoding undoes decoding on
every legal byte, of which there are as many as nibbles. Proved in Laws/Cipher.lean. -/
structure CipherLaws : Prop where
  /-- dec(enc(n)) = n. -/
  dec_enc : ∀ n : Nibble, inv (sbox n) = some n
  /-- enc(dec(b)) = b wherever dec(b) is defined. -/
  enc_dec : ∀ (b : Byte) (n : Nibble), inv b = some n → sbox n = b

/-- dec(b), the byte standing at index idx: InvalidCipherByte unless b is legal (R81, R85, R151). -/
def dec (b : Byte) (idx : Nat) : Except Raised Nibble :=
  match inv b with
  | some n => .ok n
  | none => .error (raised .invalidCipherByte idx b)

/-- pack2(m): the high nibble's cipher byte, then the low nibble's (R43, R90). -/
def pack2 (m : Byte) : List Byte := [sbox (m.extractLsb' 4 4), sbox (m.extractLsb' 0 4)]

/-- unpack2(c0, c1, idx): the byte of lower index is tested first, and carries the high nibble (R43, R90). -/
def unpack2 (c0 c1 : Byte) (idx : Nat) : Except Raised Byte :=
  match dec c0 idx with
  | .error e => .error e
  | .ok hi =>
    match dec c1 (idx + 1) with
    | .error e => .error e
    | .ok lo => .ok (hi ++ lo)

/-- nbytes(v): the number of magnitude bytes of v below 2^24; 1 for 0 (R91). -/
def nbytes (v : Nat) : Nat := if v < 256 then 1 else if v < 65536 then 2 else 3

/-- The k low bytes of v, most significant first: the byte order of encoding (R44, R91). -/
def bytesBE (k v : Nat) : List Byte := (List.range k).map (fun i => BitVec.ofNat 8 (v >>> (8 * (k - 1 - i))))

/-- The k low bytes of v, least significant first: the byte order of a response's value (R44, R113). -/
def bytesLE (k v : Nat) : List Byte := (List.range k).map (fun i => BitVec.ofNat 8 (v >>> (8 * i)))

/-- The value of magnitude bytes whose first is the least significant: the byte order of decoding, kept as one named
definition (R44, R92; U14). -/
def joinLE : List Byte → Nat
  | [] => 0
  | m :: ms => m.toNat ||| (joinLE ms <<< 8)

/-- The value of bytes whose first is the most significant: how wire bytes are shown in a register (R42). -/
def joinBE (bs : List Byte) : Nat := bs.foldl (fun acc b => (acc <<< 8) ||| b.toNat) 0

/-- enc_int(v) (R91). -/
def encInt (v : Nat) : List Byte := (bytesBE (nbytes v) v).flatMap pack2

/-- The pairs of an even-length cipher-byte sequence as magnitude bytes, in ascending index order from idx (R92). -/
def unpackPairs : List Byte → Nat → Except Raised (List Byte)
  | c0 :: c1 :: rest, idx =>
    match unpack2 c0 c1 idx with
    | .error e => .error e
    | .ok m =>
      match unpackPairs rest (idx + 2) with
      | .error e => .error e
      | .ok ms => .ok (m :: ms)
  | _, _ => .ok []

/-- dec_int(s, base): parity first, then the bytes; the value and the number of magnitude bytes (R92). -/
def decInt (s : List Byte) (base : Nat) : Except Raised (Nat × Nat) :=
  if s.length % 2 = 1 then .error (raised .oddLengthInput s.length 0)
  else
    match unpackPairs s base with
    | .error e => .error e
    | .ok ms => .ok (joinLE ms, s.length / 2)

/-- plen(r), none where it is undefined (R101). -/
def plen (r : Byte) : Option Nat :=
  match catalogLengths.lookup r.toNat with
  | some k => some k
  | none => if cellBase ≤ r.toNat ∧ r.toNat ≤ regMax then some cellLength else none

/-- build_cmd(reg, pl): preamble, register id, payload length (R66, R102). -/
def buildCmd (reg pl : Byte) : List Byte := cmdHeadBytes ++ encInt reg.toNat ++ encInt pl.toNat

/-- The bytes of index a up to and not including b: the spec's s[a:b) (00_scope.md R7). -/
def slice (s : List Byte) (a b : Nat) : List Byte := (s.drop a).take (b - a)

/-- A parsed frame (42_frame_codec.md R100), with the number k of magnitude bytes behind its value. -/
structure Frame where
  head : List Byte
  reg : Nat
  val : Nat
  k : Nat
  tail : List Byte
  deriving DecidableEq, Repr

/-- parse(raw): the steps in the order of R105, which is the order in which the faults are found (R158). -/
def parse (raw : List Byte) : Except Raised Frame :=
  if raw.length < minLen then .error (raised .frameTooShort raw.length 0)
  else if lMax < raw.length then .error (raised .tooLong raw.length 0)
  else
    match decInt (slice raw 4 6) 4 with
    | .error e => .error e
    | .ok (reg, _) =>
      match decInt (slice raw 6 (raw.length - 2)) 6 with
      | .error e => .error e
      | .ok (val, k) =>
        .ok ⟨slice raw 0 4, reg, val, k, slice raw (raw.length - 2) raw.length⟩

/-- mk_resp(head, reg, val, k): the response frame a device sends; not an operation of the block (R113). -/
def mkResp (head : List Byte) (reg : Byte) (val k : Nat) : List Byte :=
  head ++ pack2 reg ++ (bytesLE k val).flatMap pack2 ++ tailOk

/-- MemRead(IBUF+i, 1) for i from 0 to n − 1, n at most 14 (R8, R40). -/
def State.input (s : State) (n : Nat) : List Byte := s.ibuf.toList.take n

/-- DECI's operand: more than KMAX magnitude bytes is TooLong before any byte is read; else dec_int of the whole buffer
(R95). -/
def State.inputInteger (s : State) : Except Raised (Nat × Nat) :=
  if 2 * kMax < s.ilen.toNat then .error (raised .tooLong s.ilen.toNat 0)
  else decInt (s.input s.ilen.toNat) 0

/-- PFRM's operand: the two length tests stand before the buffer is read (R110). -/
def State.inputFrame (s : State) : Except Raised Frame :=
  if s.ilen.toNat < minLen then .error (raised .frameTooShort s.ilen.toNat 0)
  else if lMax < s.ilen.toNat then .error (raised .tooLong s.ilen.toNat 0)
  else parse (s.input s.ilen.toNat)

end Sys2Proof.Machine
end

