-- ==== Sys2Proof/Machine/Flags.lean ====
section
/-! DEFINITION. The block's only flags, RFLG (10_state.md R24; 42_frame_codec.md R107 to R109). -/

namespace Sys2Proof.Machine

/-- tvalid(tail): the trailer is 14 13 in that order (R107). -/
def tvalid (tail : List Byte) : Bool := tail == tailOk

/-- lenok(reg, k): plen(reg) is defined and equals k (R109). -/
def lenok (reg : Byte) (k : Nat) : Bool := plen reg == some k

/-- rcls(reg): 0 catalog range, 1 cell-voltage range, 2 outside the data model (R108). -/
def rcls (reg : Byte) : BitVec 2 :=
  if reg.toNat < cellBase then 0 else if reg.toNat ≤ regMax then 1 else 2

/-- RFLG of a frame: RCLS in bits 3:2, LENOK in bit 1, TVALID in bit 0 (R24). -/
def frameFlags (tail : List Byte) (reg : Byte) (k : Nat) : BitVec 4 :=
  rcls reg ++ BitVec.ofBool (lenok reg k) ++ BitVec.ofBool (tvalid tail)

end Sys2Proof.Machine
end

