-- ==== Sys2Proof/Machine/Ops.lean ====
section
/-! DEFINITION. The named operations on the state: raising a fault and completing (60_exceptions.md R159, R160), writing
the buffers and the result registers (10_state.md R31), reset (70_reset_and_hazards.md R170), the read port (10_state.md
R29, R30), and taking the host's next action (50_host_protocol.md R130). -/

namespace Sys2Proof.Machine

/-- The code of a fault in STATUS and FLOG (R150). -/
def faultCode : FaultKind → Nat
  | .invalidCipherByte => 1
  | .frameTooShort => 2
  | .oddLengthInput => 3
  | .unknownRegister => 4
  | .tooLong => 5
  | .illegalCommand => 6

/-- Fault entry: STATUS, FINFO and one bit of FLOG, and nothing else (R159). There is no handler and nothing to return
from (R160). -/
def State.raise (s : State) (r : Raised) : State :=
  { s with
    status := BitVec.ofNat 4 (faultCode r.kind)
    finfo := r.idx ++ r.byte
    flog := s.flog ||| (1#7 <<< faultCode r.kind) }

/-- Completion without fault: STATUS and FINFO to 0 (R13, R14). -/
def State.complete (s : State) : State := { s with status := 0, finfo := 0 }

/-- How an operation ends: it completes with the writes it made, or it raises from the state before it, so that no other
write of a faulting operation lands (R31, R159: "never partially applied"). -/
def State.commit (s : State) : Except Raised State → Host.Outcome State Fault Refusal
  | .ok t => .next t.complete
  | .error r => .next (s.raise r)

/-- MemWrite(OBUF+j, 1, out[0]), MemWrite(OBUF+j+1, 1, out[1]), ... (R8, R27). -/
def writeBytes (buf : Vector Byte 8) (j : Nat) : List Byte → Vector Byte 8
  | [] => buf
  | b :: rest => writeBytes (buf.setIfInBounds j b) (j + 1) rest

/-- A serialiser's result: the bytes at the start of OBUF, the bytes beyond them unchanged, and OLEN their number
(R17, R27). -/
def State.emit (s : State) (out : List Byte) : State :=
  { s with obuf := writeBytes s.obuf 0 out, olen := BitVec.ofNat 4 out.length }

/-- DECB's result (R18). -/
def State.showNibble (s : State) (n : Nibble) : State := { s with nib := n }

/-- DECI's result: RVAL and RK together (R20, R21). -/
def State.showInteger (s : State) (val k : Nat) : State :=
  { s with rval := BitVec.ofNat 24 val, rk := BitVec.ofNat 2 k }

/-- PFRM's result: the six registers of a frame together (R19 to R24, R110). -/
def State.showFrame (s : State) (f : Frame) : State :=
  { s with
    rhead := BitVec.ofNat 32 (joinBE f.head)
    rreg := BitVec.ofNat 8 f.reg
    rval := BitVec.ofNat 24 f.val
    rk := BitVec.ofNat 2 f.k
    rtail := BitVec.ofNat 16 (joinBE f.tail)
    rflg := frameFlags f.tail (BitVec.ofNat 8 f.reg) f.k }

/-- Append a byte to the input buffer: stored while ILEN is below 14, counted in any case up to 255 (R16, R120). -/
def State.pushByte (s : State) (b : Byte) : State :=
  { s with
    ibuf := if s.ilen.toNat < lMax then s.ibuf.setIfInBounds s.ilen.toNat b else s.ibuf
    ilen := BitVec.ofNat 8 (min (s.ilen.toNat + 1) ilenMax) }

/-- Empty the input buffer: ILEN only, the bytes stay (R26, R121). -/
def State.emptyInput (s : State) : State := { s with ilen := 0 }

/-- Clear the fault log (R15, R122). -/
def State.clearLog (s : State) : State := { s with flog := 0 }

/-- A command word that selects no operation: IllegalCommand with BYTE = CW[31:24] (R64, R156). -/
def State.illegalCommand (s : State) (cw : Word) : State :=
  s.raise ⟨.illegalCommand, 0, cw.extractLsb' 24 8⟩

/-- The reset event: the control registers to 0; every data register and buffer byte to a free value of the reset's
number and of what it held (R33, R170; assumption 1). -/
def State.assertReset (s : State) : State :=
  { s with
    status := 0
    finfo := 0
    flog := 0
    ilen := 0
    olen := 0
    nib := Config.resetNib s.epoch s.nib
    rreg := Config.resetRreg s.epoch s.rreg
    rval := Config.resetRval s.epoch s.rval
    rk := 0
    rhead := Config.resetRhead s.epoch s.rhead
    rtail := Config.resetRtail s.epoch s.rtail
    rflg := 0
    obuf := s.obuf.mapIdx (fun i b => Config.resetObuf s.epoch i b)
    ibuf := s.ibuf.mapIdx (fun i b => Config.resetIbuf s.epoch i b) }

/-- CMDHEAD, register 12: hardwired, the same in every state; the preamble with byte 0 in bits 31:24 (R25, R42). -/
def State.cmdhead (_ : State) : Word := BitVec.ofNat 32 (joinBE cmdHeadBytes)

/-- The read port: the register with that number zero-extended to 32 bits (R10, R29, R30); a free value for an
unassigned number (R48, U6; assumption 2). -/
def State.readPort (s : State) (n : RegNum) : Word :=
  match n.toNat with
  | 0 => s.status.setWidth 32
  | 1 => s.finfo.setWidth 32
  | 2 => s.flog.setWidth 32
  | 3 => s.ilen.setWidth 32
  | 4 => s.olen.setWidth 32
  | 5 => s.nib.setWidth 32
  | 6 => s.rreg.setWidth 32
  | 7 => s.rval.setWidth 32
  | 8 => s.rk.setWidth 32
  | 9 => s.rhead
  | 10 => s.rtail.setWidth 32
  | 11 => s.rflg.setWidth 32
  | 12 => s.cmdhead
  | k =>
    if h : 16 ≤ k ∧ k < 24 then (s.obuf[k - 16]).setWidth 32
    else if h : 32 ≤ k ∧ k < 46 then (s.ibuf[k - 32]).setWidth 32
    else Config.unassignedRead s.epoch n

/-- A host read: the port's value is the reply, and nothing of the block changes (R29, R46). -/
def State.hostRead (s : State) (n : RegNum) : State := { s with reply := some (s.readPort n) }

/-- The state in which a reset or a command word is carried out: the host's remaining actions wait, and the action is
counted. -/
def State.take (s : State) (rest : List HostAction) : State :=
  { s with pending := rest, epoch := s.epoch + 1 }

/-- The state in which a read is carried out: the host's remaining actions wait; a read is not counted (R46). -/
def State.takeRead (s : State) (rest : List HostAction) : State := { s with pending := rest }

end Sys2Proof.Machine
end

