-- ==== Sys2Proof/Machine/BufferControl.lean ====
section
/-! DEFINITION. The buffer and control operations: PUSH, CLRI, CLRF (43_buffer_control.md R120 to R122). -/

namespace Sys2Proof.Machine

/-- PUSH b (R120). -/
def execPush (b : Byte) (s : State) : Host.Outcome State Fault Refusal :=
  s.commit (.ok (s.pushByte b))

/-- CLRI (R121). -/
def execClri (s : State) : Host.Outcome State Fault Refusal :=
  s.commit (.ok s.emptyInput)

/-- CLRF (R122). -/
def execClrf (s : State) : Host.Outcome State Fault Refusal :=
  s.commit (.ok s.clearLog)

end Sys2Proof.Machine
end

