-- ==== Sys2Proof/Machine/Cipher.lean ====
section
/-! DEFINITION. The nibble cipher's operations: ENCN, DECB (40_nibble_cipher.md R83, R84). -/

namespace Sys2Proof.Machine

/-- ENCN n (R83). -/
def execEncn (n : Nibble) (s : State) : Host.Outcome State Fault Refusal :=
  s.commit (.ok (s.emit [sbox n]))

/-- DECB b: the byte is the operand, so its index is 0 (R84, R151). -/
def execDecb (b : Byte) (s : State) : Host.Outcome State Fault Refusal :=
  s.commit ((dec b 0).map s.showNibble)

end Sys2Proof.Machine
end

