-- ==== Sys2Proof/Machine/FrameCodec.lean ====
section
/-! DEFINITION. The frame codec's operations: BCMD, QCMD, PFRM (42_frame_codec.md R103, R104, R110). -/

namespace Sys2Proof.Machine

/-- BCMD reg, plen: no check of either operand (R103). -/
def execBcmd (reg pl : Byte) (s : State) : Host.Outcome State Fault Refusal :=
  s.commit (.ok (s.emit (buildCmd reg pl)))

/-- QCMD reg: BCMD with the declared length, UnknownRegister where there is none (R104, R154). -/
def execQcmd (reg : Byte) (s : State) : Host.Outcome State Fault Refusal :=
  match plen reg with
  | none => s.commit (.error (raised .unknownRegister 0 reg))
  | some k => s.commit (.ok (s.emit (buildCmd reg (BitVec.ofNat 8 k))))

/-- PFRM (R110). -/
def execPfrm (s : State) : Host.Outcome State Fault Refusal :=
  s.commit (s.inputFrame.map s.showFrame)

end Sys2Proof.Machine
end

