-- ==== Sys2Proof/Machine/Packing.lean ====
section
/-! DEFINITION. The integer operations: ENCI, DECI (41_integer_packing.md R94, R95). -/

namespace Sys2Proof.Machine

/-- ENCI v (R94). -/
def execEnci (v : Magnitude) (s : State) : Host.Outcome State Fault Refusal :=
  s.commit (.ok (s.emit (encInt v.toNat)))

/-- DECI (R95). -/
def execDeci (s : State) : Host.Outcome State Fault Refusal :=
  s.commit (s.inputInteger.map (fun r => s.showInteger r.1 r.2))

end Sys2Proof.Machine
end

