-- ==== Sys2Proof/Machine/Dispatch.lean ====
section
/-! DEFINITION. One arm per operation of the opcode map (30_encoding.md R63). -/

namespace Sys2Proof.Machine

def exec (i : Instr) (s : State) : Host.Outcome State Fault Refusal :=
  match i with
  | .encn n => Sys2Proof.Machine.execEncn n s
  | .decb b => Sys2Proof.Machine.execDecb b s
  | .enci v => Sys2Proof.Machine.execEnci v s
  | .deci => Sys2Proof.Machine.execDeci s
  | .bcmd reg pl => Sys2Proof.Machine.execBcmd reg pl s
  | .qcmd reg => Sys2Proof.Machine.execQcmd reg s
  | .pfrm => Sys2Proof.Machine.execPfrm s
  | .push b => Sys2Proof.Machine.execPush b s
  | .clri => Sys2Proof.Machine.execClri s
  | .clrf => Sys2Proof.Machine.execClrf s

end Sys2Proof.Machine
end

