-- ==== Sys2Proof/Machine/Step.lean ====
section
/-! DEFINITION. One step: the host's next action is carried out (50_host_protocol.md R130; 20_memory.md R50). With no
action waiting the block is idle and keeps all state (60_exceptions.md R163; 70_reset_and_hazards.md R183). -/

namespace Sys2Proof.Machine

/-- One step of the block under its host. -/
def step (s : State) : Host.Outcome State Fault Refusal :=
  match s.pending with
  | [] => .next s
  | .reset :: rest => .next (s.take rest).assertReset
  | .read n :: rest => .next ((s.takeRead rest).hostRead n)
  | .command cw :: rest =>
    match decode cw with
    | .ok i => exec i (s.take rest)
    | .error _ => .next ((s.take rest).illegalCommand cw)

/-- The state with a command word, given as spec/opcode_table.json numbers its bits, as the host's next action. -/
def State.withFetchWord (s : State) (nbits w : Nat) : State :=
  { s with pending := .command (tableWord nbits w) :: s.pending }

end Sys2Proof.Machine
end

