-- ==== Sys2Proof/Safety.lean ====
section
/-! DEFINITION. What claims about NSCFC-1 rest on: the invariant of its registers, what a host may take from the block
after PFRM (50_host_protocol.md R132, R133), and the two action sequences a host may not break up (R131;
70_reset_and_hazards.md R176). -/

namespace Sys2Proof.Machine

/-- RFLG.TVALID (10_state.md R24). -/
def State.tvalidFlag (s : State) : Bool := s.rflg[0]

/-- RFLG.LENOK (R24). -/
def State.lenokFlag (s : State) : Bool := s.rflg[1]

/-- RFLG.RCLS (R24). -/
def State.rclsField (s : State) : BitVec 2 := s.rflg.extractLsb' 2 2

/-- What FINFO can hold beside a fault code (60_exceptions.md R150 to R156): 0 without fault; BYTE 0 and IDX below 8
for FrameTooShort; BYTE 0 and IDX 1, 3 or 5 for OddLengthInput; IDX 0 for UnknownRegister; BYTE 0 and IDX above 6 for
TooLong; IDX 0 for IllegalCommand; IDX below 12 for InvalidCipherByte. -/
def finfoFits (code : BitVec 4) (finfo : BitVec 16) : Prop :=
  match code.toNat with
  | 0 => finfo = 0
  | 1 => finfo.toNat / 256 < 12
  | 2 => finfo.toNat % 256 = 0 ∧ finfo.toNat / 256 < 8
  | 3 => finfo.toNat % 256 = 0 ∧ (finfo.toNat / 256 = 1 ∨ finfo.toNat / 256 = 3 ∨ finfo.toNat / 256 = 5)
  | 4 => finfo.toNat / 256 = 0
  | 5 => finfo.toNat % 256 = 0 ∧ 6 < finfo.toNat / 256
  | 6 => finfo.toNat / 256 = 0
  | _ => False

/-- What the registers of the block keep to from reset on. -/
structure State.Inv (s : State) : Prop where
  /-- STATUS is one of the seven codes and FINFO belongs to it (R13, R14, R150; U16). -/
  info : finfoFits s.status s.finfo
  /-- Bit 0 of FLOG is always 0 (R15). -/
  log_bit0 : s.flog.getLsbD 0 = false
  /-- A fault still in STATUS is in the log (R15, R159). -/
  logged : s.status ≠ 0 → s.flog.getLsbD s.status.toNat = true
  /-- OLEN is 0 before the first serialiser, then 1, 2, 4, 6 or 8 (R17). -/
  out_length : s.olen.toNat ∈ [0, 1, 2, 4, 6, 8]
  /-- The value 3 of RCLS never occurs (R24). -/
  no_class3 : s.rclsField ≠ 3
  /-- TVALID is 1 only with the trailer 14 13 on display (R23, R24). -/
  trailer : s.tvalidFlag = true → s.rtail = 0x1413
  /-- LENOK is 1 only with a register id that has a declared length (R24, R101). -/
  declared : s.lenokFlag = true → (plen s.rreg).isSome = true

/-- After PFRM: the frame may be applied only with STATUS = 0 and TVALID = 1 (R132). -/
def State.acceptable (s : State) : Bool := decide (s.status = 0) && s.tvalidFlag

/-- Where an accepted frame goes (R133). -/
inductive Route where
  /-- The catalog entry of a register id up to 48. -/
  | catalog (reg : Byte) (val : Magnitude)
  /-- Cell-voltage slot RREG − 49. -/
  | cellSlot (slot : Nat) (val : Magnitude)
  deriving DecidableEq, Repr

/-- The routing of the frame on display (R132, R133): none where the host drops it (a fault, a bad trailer, an id the
catalog does not know, an id above 63). -/
def State.route (s : State) : Option Route :=
  if s.acceptable then
    match s.rclsField.toNat with
    | 0 => if (plen s.rreg).isSome then some (.catalog s.rreg s.rval) else none
    | 1 => some (.cellSlot (s.rreg.toNat - cellBase) s.rval)
    | _ => none
  else none

/-- The routing of a host that also follows the design note on lengths: LENOK = 0 is dropped (R133, R181). -/
def State.routeChecked (s : State) : Option Route := if s.lenokFlag then s.route else none

/-- The host's reads of the registers numbered from a, n of them. -/
def readsFrom (a n : Nat) : List HostAction := (List.range n).map (fun i => .read (BitVec.ofNat 6 (a + i)))

/-- The command words of a list of operations as host actions. -/
def commands (is : List Instr) : List HostAction := is.map (fun i => .command (encode i))

/-- Sequence (b) of R176: build a frame with one of the serialisers, then read STATUS, OLEN and OBUF[0] to OBUF[7], the
bytes handed to the transport's write (R131). -/
def sendActions (serialise : Instr) : List HostAction :=
  commands [serialise] ++ readsFrom 0 1 ++ readsFrom 4 1 ++ readsFrom 16 8

/-- Sending a query with the catalog's payload length: "it issues QCMD" (R131). -/
def queryActions (reg : Byte) : List HostAction := sendActions (.qcmd reg)

/-- Sending a query with an explicit payload length: "(or BCMD)" (R131). -/
def explicitQueryActions (reg plen : Byte) : List HostAction := sendActions (.bcmd reg plen)

/-- Sequence (a) of R176: load a received buffer, parse it, then read STATUS and the result registers (R131). -/
def responseActions (bytes : List Byte) : List HostAction :=
  commands (parseSeq bytes) ++ readsFrom 0 1 ++ readsFrom 6 6

end Sys2Proof.Machine
end

