-- ==== Sys2Proof/Certificates/Slice0/Obligations.lean ====
section
/-! DEFINITION. The statements for the provers, each a numbered rule of spec/ or a law derived from them. The
definitions under Sys2Proof.Claims write the spec's tables and formulas out once more, independently of the machine's
own functions, so that a statement compares the machine with the spec and not with itself. -/

open Sys2Proof Sys2Proof.Machine

namespace Sys2Proof.Claims

/-- SBOX as R80 lists it. -/
def alphabet : List Byte :=
  [0x29, 0x28, 0x2B, 0x2A, 0x2D, 0x2C, 0x2F, 0x2E, 0x21, 0x20, 0x58, 0x5B, 0x5A, 0x5D, 0x5C, 0x5F]

/-- The cipher byte of a nibble (R80). -/
def cipher (n : Nibble) : Byte := alphabet.getD n.toNat 0

/-- A byte that is one of the sixteen cipher bytes (R65, R81). -/
def legal (b : Byte) : Prop := b ∈ alphabet

/-- The two cipher bytes of a magnitude byte, high nibble first (R43). -/
def pair (m : Byte) : List Byte := [cipher (BitVec.ofNat 4 (m.toNat / 16)), cipher (BitVec.ofNat 4 m.toNat)]

/-- The value of magnitude bytes whose first is the least significant (R44). -/
def littleEndian : List Byte → Nat
  | [] => 0
  | m :: ms => m.toNat + 256 * littleEndian ms

/-- The least number of magnitude bytes of a value below 2^24, at least one (R91). -/
def magnitudeBytes (v : Nat) : Nat := if v < 256 then 1 else if v < 65536 then 2 else 3

/-- The hexadecimal digits of a value, two per magnitude byte, most significant first (R43, R44, R91). -/
def digits (v : Nat) : List Nibble :=
  (List.range (2 * magnitudeBytes v)).reverse.map (fun j => BitVec.ofNat 4 (v / 16 ^ j))

/-- The byte-reversed value over k = 1, 2 or 3 bytes, with the formulas of R93. -/
def bswap (k v : Nat) : Nat :=
  if k = 1 then v
  else if k = 2 then ((v &&& 0xFF) <<< 8) ||| (v >>> 8)
  else ((v &&& 0xFF) <<< 16) ||| (v &&& 0xFF00) ||| (v >>> 16)

/-- The payload length of a register id, none where the table of R101 has no entry. -/
def declaredLength (r : Byte) : Option Nat :=
  if r.toNat ∈ [8, 9, 23] then some 2
  else if r.toNat ∈ [10, 15, 24] then some 3
  else if r.toNat = 13 then some 1
  else if 49 ≤ r.toNat ∧ r.toNat ≤ 63 then some 2
  else none

/-- The 8-byte command frame (R66). -/
def commandFrame (reg pl : Byte) : List Byte := [0x32, 0x4B, 0x28, 0x2F] ++ pair reg ++ pair pl

/-- OBUF after a serialiser put out at its start: the bytes beyond it stay (R27). -/
def overwrite (buf : Vector Byte 8) (out : List Byte) : Vector Byte 8 :=
  Vector.ofFn (fun i : Fin 8 => out.getD i.val buf[i])

/-- The bytes in the input buffer (R16, R26). -/
def buffered (s : State) : List Byte := s.ibuf.toList.take s.ilen.toNat

/-- Completion without fault (R13, R14). -/
def completed (s : State) : State := { s with status := 0, finfo := 0 }

/-- The state after a serialiser that put out in OBUF (R17, R27). -/
def serialised (s : State) (out : List Byte) : State :=
  completed { s with obuf := overwrite s.obuf out, olen := BitVec.ofNat 4 out.length }

/-- Fault entry as R159 writes it. -/
def afterRaise (s : State) (code : Nat) (idx byte : Byte) : State :=
  { s with
    status := BitVec.ofNat 4 code
    finfo := (idx.setWidth 16 <<< 8) ||| byte.setWidth 16
    flog := s.flog ||| (1#7 <<< code) }

/-- RFLG of a frame with register id reg, k magnitude bytes and the trailer bytes t0 t1 (R24, R107, R108, R109). -/
def flags (reg : Byte) (k : Nat) (t0 t1 : Byte) : BitVec 4 :=
  BitVec.ofNat 4
    ((if t0 = 0x14 ∧ t1 = 0x13 then 1 else 0)
      + (if declaredLength reg = some k then 2 else 0)
      + 4 * (if reg.toNat ≤ 48 then 0 else if reg.toNat ≤ 63 then 1 else 2))

/-- A command word that is illegal by R64: opcode 0 or B to F, or a bit its format marks zero is 1. -/
def illegalWord (cw : Word) : Prop :=
  let op := cw.toNat / 2 ^ 28
  op = 0 ∨ 0xB ≤ op ∨
    (op = 1 ∧ cw.toNat % 2 ^ 28 / 2 ^ 4 ≠ 0) ∨
    ((op = 2 ∨ op = 6 ∨ op = 8) ∧ cw.toNat % 2 ^ 28 / 2 ^ 8 ≠ 0) ∨
    (op = 3 ∧ cw.toNat % 2 ^ 28 / 2 ^ 24 ≠ 0) ∨
    (op = 5 ∧ cw.toNat % 2 ^ 28 / 2 ^ 16 ≠ 0) ∨
    ((op = 4 ∨ op = 7 ∨ op = 9 ∨ op = 0xA) ∧ cw.toNat % 2 ^ 28 ≠ 0)

/-- The state in which a command word is carried out: the rest of the host's actions wait, the action is counted (the
model's own bookkeeping, assumptions 3 and 4). -/
def taken (s : State) (rest : List HostAction) : State := { s with pending := rest, epoch := s.epoch + 1 }

/-- The two states agree on every register of the block but STATUS and FINFO. -/
def agreeButInfo (s t : State) : Prop :=
  s.flog = t.flog ∧ s.ilen = t.ilen ∧ s.olen = t.olen ∧ s.nib = t.nib ∧ s.rreg = t.rreg ∧ s.rval = t.rval ∧
  s.rk = t.rk ∧ s.rhead = t.rhead ∧ s.rtail = t.rtail ∧ s.rflg = t.rflg ∧ s.obuf = t.obuf ∧ s.ibuf = t.ibuf

/-- The two states agree on what the host has still to do, has read and has done: the model's own fields. -/
def sameHost (s t : State) : Prop := s.pending = t.pending ∧ s.reply = t.reply ∧ s.epoch = t.epoch

/-- The serialisers: the four operations that write OBUF and OLEN (R31). -/
def serialiser : Instr → Prop
  | .encn _ => True
  | .enci _ => True
  | .bcmd _ _ => True
  | .qcmd _ => True
  | _ => False

/-- The operations that write neither OBUF nor OLEN and no result but of decoding or loading (R31, R176). -/
def readerOrLoader : Instr → Prop
  | .decb _ => True
  | .deci => True
  | .pfrm => True
  | .push _ => True
  | .clri => True
  | _ => False

/-- The fault codes an operation can leave in STATUS, the matrix of R165. -/
def canRaise : Instr → List Nat
  | .decb _ => [1]
  | .deci => [1, 3, 5]
  | .qcmd _ => [4]
  | .pfrm => [1, 2, 3, 5]
  | _ => []

/-- Every written number fits its field: n in 4 bits, b, reg and plen in 8, v in 24 (R61, R62). -/
def withinFields : Asm → Prop
  | .encn n => n < 16
  | .decb b => b < 256
  | .enci v => v < 16777216
  | .bcmd reg plen => reg < 256 ∧ plen < 256
  | .qcmd reg => reg < 256
  | .push b => b < 256
  | .deci => True
  | .pfrm => True
  | .clri => True
  | .clrf => True
  | .load bytes => ∀ b ∈ bytes, b < 256
  | .parse bytes => ∀ b ∈ bytes, b < 256
  | .decode bytes => ∀ b ∈ bytes, b < 256

/-- The command words a line stands for, as numbers: the opcode in the top hexadecimal digit (R63), the operands in
the order of R70 at the places of R61, the expansions of R71. -/
def lineWords : Asm → List Nat
  | .encn n => [0x10000000 + n]
  | .decb b => [0x20000000 + b]
  | .enci v => [0x30000000 + v]
  | .deci => [0x40000000]
  | .bcmd reg plen => [0x50000000 + 0x100 * plen + reg]
  | .qcmd reg => [0x60000000 + reg]
  | .pfrm => [0x70000000]
  | .push b => [0x80000000 + b]
  | .clri => [0x90000000]
  | .clrf => [0xA0000000]
  | .load bytes => 0x90000000 :: bytes.map (0x80000000 + ·)
  | .parse bytes => 0x90000000 :: bytes.map (0x80000000 + ·) ++ [0x70000000]
  | .decode bytes => 0x90000000 :: bytes.map (0x80000000 + ·) ++ [0x40000000]

/-- The operations a line stands for, with the operands as bit vectors (R70, R71). -/
def lineOperations : Asm → List Instr
  | .encn n => [.encn (BitVec.ofNat 4 n)]
  | .decb b => [.decb (BitVec.ofNat 8 b)]
  | .enci v => [.enci (BitVec.ofNat 24 v)]
  | .deci => [.deci]
  | .bcmd reg plen => [.bcmd (BitVec.ofNat 8 reg) (BitVec.ofNat 8 plen)]
  | .qcmd reg => [.qcmd (BitVec.ofNat 8 reg)]
  | .pfrm => [.pfrm]
  | .push b => [.push (BitVec.ofNat 8 b)]
  | .clri => [.clri]
  | .clrf => [.clrf]
  | .load bytes => .clri :: bytes.map (fun b => .push (BitVec.ofNat 8 b))
  | .parse bytes => .clri :: bytes.map (fun b => .push (BitVec.ofNat 8 b)) ++ [.pfrm]
  | .decode bytes => .clri :: bytes.map (fun b => .push (BitVec.ofNat 8 b)) ++ [.deci]

end Sys2Proof.Claims

open Sys2Proof.Claims

/-- R63, R83 and the other operation rules: ten words written out from the spec's encodings and examples. -/
def Obligations.SpecWordsDecodeAsWritten : Prop :=
  decode 0x1000000D = .ok (.encn 13) ∧ decode 0x2000005D = .ok (.decb 0x5D) ∧
  decode 0x30000BB8 = .ok (.enci 3000) ∧ decode 0x40000000 = .ok .deci ∧
  decode 0x5000010D = .ok (.bcmd 13 1) ∧ decode 0x6000003F = .ok (.qcmd 63) ∧
  decode 0x70000000 = .ok .pfrm ∧ decode 0x80000032 = .ok (.push 0x32) ∧
  decode 0x90000000 = .ok .clri ∧ decode 0xA0000000 = .ok .clrf ∧
  decode 0x00000000 = .error (.unassignedOpcode 0) ∧ decode 0x10000010 = .error (.reservedBit 1)

/-- R50, R60: a command word that decodes is carried out as that one operation. The model's choice around it: the word
leaves the host's list (assumption 4) and is counted (assumption 3). -/
def Obligations.StepRunsTheDecodedOperation : Prop :=
  ∀ (s : State) (cw : Word) (i : Instr) (rest : List HostAction),
    s.pending = .command cw :: rest → decode cw = .ok i → step s = exec i (taken s rest)

/-- R61, R62, R63: decoding the word of any operation gives it back with every operand. -/
def Obligations.DecodingUndoesEncoding : Prop :=
  ∀ i : Instr, decode (encode i) = .ok i

/-- R60 to R64: a word that decodes is the word of its operation, so that no bit of it is ignored. -/
def Obligations.LegalWordsAreEncodings : Prop :=
  ∀ (cw : Word) (i : Instr), decode cw = .ok i → encode i = cw

/-- R63: a word that decodes matches the row of its own operation and no other row. -/
def Obligations.DecodedWordMatchesItsRowOnly : Prop :=
  ∀ (cw : Word) (i : Instr), decode cw = .ok i →
    ∀ r ∈ opRows, (r.selects cw = true ↔ r.mnemonic = i.mnemonic)

/-- R64: a word is rejected exactly when its opcode is unassigned or a zero bit is set, exactly when it matches no
row. -/
def Obligations.IllegalWordsAreThoseOfNoRow : Prop :=
  ∀ cw : Word, ((∃ e, decode cw = .error e) ↔ illegalWord cw) ∧ (illegalWord cw ↔ ∀ r ∈ opRows, r.selects cw = false)

/-- R64, R156: an illegal word raises IllegalCommand with BYTE = CW[31:24] and changes nothing else of the block. That
the word leaves the host's list (assumption 4) and is counted (assumption 3) is the model's choice. -/
def Obligations.IllegalWordRaisesIllegalCommand : Prop :=
  ∀ (s : State) (cw : Word) (rest : List HostAction),
    s.pending = .command cw :: rest → illegalWord cw →
      step s = .next (afterRaise (taken s rest) 6 0 (BitVec.ofNat 8 (cw.toNat / 2 ^ 24)))

/-- R61 to R63, R70, R71: an assembler line whose numbers fit its fields is assembled to the words the spec writes for
it, pseudo-instructions expanded, and these decode to its operations. That a line with a number that does not fit is
refused is the model's reading (assumption 14). -/
def Obligations.AssembledLinesDecodeToTheirOperations : Prop :=
  ∀ a : Asm,
    (withinFields a → ∃ ws : List Word, a.assemble = some ws ∧ ws.map BitVec.toNat = lineWords a ∧
      ws.map decode = (lineOperations a).map Except.ok) ∧
    (¬ withinFields a → a.assemble = none)

/-- R170: the reset event sets the control registers to 0 and leaves CMDHEAD its constant. The data registers are not
named: their values are free (assumption 1). That the action leaves the host's list is the model's choice
(assumption 4). -/
def Obligations.ResetActionClearsTheControlRegisters : Prop :=
  ∀ (s : State) (rest : List HostAction), s.pending = .reset :: rest →
    ∃ t, step s = .next t ∧ t.status = 0 ∧ t.finfo = 0 ∧ t.flog = 0 ∧ t.ilen = 0 ∧ t.olen = 0 ∧ t.rk = 0 ∧
      t.rflg = 0 ∧ t.cmdhead = 0x324B282F ∧ t.pending = rest

/-- R10, R170: power-on is reset: the same values in the state the machine starts from. -/
def Obligations.PowerOnHasTheResetValues : Prop :=
  State.reset.status = 0 ∧ State.reset.finfo = 0 ∧ State.reset.flog = 0 ∧ State.reset.ilen = 0 ∧
  State.reset.olen = 0 ∧ State.reset.rk = 0 ∧ State.reset.rflg = 0 ∧ State.reset.cmdhead = 0x324B282F

/-- R171: what holds right after a reset event in any state: both buffers are empty, TVALID, STATUS and FLOG are 0, DECI
gives RVAL = 0 and RK = 0, PFRM raises FrameTooShort with FINFO = (0, 0), and every operation can be carried out. The
reset event is the step with reset as the host's next action (assumption 4). -/
def Obligations.FirstDecodesAfterReset : Prop :=
  ∀ (s t : State) (rest : List HostAction), s.pending = .reset :: rest → step s = .next t →
    t.ilen = 0 ∧ t.olen = 0 ∧ t.tvalidFlag = false ∧ t.status = 0 ∧ t.flog = 0 ∧
    exec .deci t = .next { t with rval := 0, rk := 0, status := 0, finfo := 0 } ∧
    exec .pfrm t = .next (afterRaise t 2 0 0) ∧
    ∀ i : Instr, ∃ u, exec i t = .next u

/-- R163, R183: with no host action the block is idle and keeps all state. That an idle step exists is the model's
choice (assumption 4). -/
def Obligations.IdleBlockKeepsItsState : Prop :=
  ∀ s : State, s.pending = [] → step s = .next s

/-- R10, R29, R30: a read returns the register with that number, zero-extended, and changes nothing of the block. The
model's choices in it: a buffer byte at or beyond its length reads as the byte that stands there (assumption 11), the
value stands in reply (assumption 5), and the read leaves the host's list (assumption 4). -/
def Obligations.HostReadReturnsTheNumberedRegister : Prop :=
  ∀ (s : State) (rest : List HostAction) (n : RegNum) (v : Word), s.pending = .read n :: rest →
    ((n = 0 ∧ v = s.status.setWidth 32) ∨ (n = 1 ∧ v = s.finfo.setWidth 32) ∨ (n = 2 ∧ v = s.flog.setWidth 32) ∨
     (n = 3 ∧ v = s.ilen.setWidth 32) ∨ (n = 4 ∧ v = s.olen.setWidth 32) ∨ (n = 5 ∧ v = s.nib.setWidth 32) ∨
     (n = 6 ∧ v = s.rreg.setWidth 32) ∨ (n = 7 ∧ v = s.rval.setWidth 32) ∨ (n = 8 ∧ v = s.rk.setWidth 32) ∨
     (n = 9 ∧ v = s.rhead) ∨ (n = 10 ∧ v = s.rtail.setWidth 32) ∨ (n = 11 ∧ v = s.rflg.setWidth 32) ∨
     (n = 12 ∧ v = 0x324B282F) ∨
     (∃ i : Fin 8, n.toNat = 16 + i.val ∧ v = (s.obuf[i]).setWidth 32) ∨
     (∃ i : Fin 14, n.toNat = 32 + i.val ∧ v = (s.ibuf[i]).setWidth 32)) →
    step s = .next { s with pending := rest, reply := some v }

/-- R29, R46: two reads of one register with no command word between them return the same value, and a read changes no
register. That this holds of an unassigned number too is the model's reading of R46 (assumption 2); where the value
stands and how a read is taken are the model's choices (assumptions 4 and 5). -/
def Obligations.ReadsAreIdempotentAndChangeNothing : Prop :=
  ∀ (s : State) (rest : List HostAction) (n : RegNum), s.pending = .read n :: .read n :: rest →
    ∃ v t, step s = .next t ∧ t = { s with pending := .read n :: rest, reply := some v } ∧
      step t = .next { s with pending := rest, reply := some v }

/-- R83: the word 1000000n (hex) is ENCN n, which puts SBOX[n] in OBUF[0] and 1 in OLEN. -/
def Obligations.EncnPutsTheCipherByteFirst : Prop :=
  ∀ (n : Nibble) (s : State),
    decode (0x10000000#32 ||| n.setWidth 32) = .ok (.encn n) ∧
    exec (.encn n) s = .next (serialised s [cipher n])

/-- R86: what ENCN puts in OBUF[0] is the closed form xor 0x19. -/
def Obligations.EncnFollowsTheClosedForm : Prop :=
  ∀ (n : Nibble) (s : State), ∃ t, exec (.encn n) s = .next t ∧
    t.obuf[0] = (BitVec.ofNat 8 (if n.toNat ≤ 9 then 0x30 + n.toNat else 0x37 + n.toNat)) ^^^ 0x19

/-- R84: DECB of the n-th cipher byte leaves NIB = n. -/
def Obligations.DecbOfACipherByteGivesItsNibble : Prop :=
  ∀ (n : Nibble) (s : State),
    exec (.decb (cipher n)) s = .next { s with nib := n, status := 0, finfo := 0 }

/-- R84, R85, R151: DECB of any of the other 240 bytes raises InvalidCipherByte with IDX 0 and the byte. -/
def Obligations.DecbOfAnIllegalByteFaults : Prop :=
  ∀ (b : Byte) (s : State), ¬ legal b → exec (.decb b) s = .next (afterRaise s 1 0 b)

/-- R82: DECB undoes ENCN, and ENCN undoes DECB on a byte that DECB accepts. -/
def Obligations.EncnAndDecbUndoEachOther : Prop :=
  (∀ (n : Nibble) (s t : State), exec (.encn n) s = .next t →
    ∃ u, exec (.decb t.obuf[0]) t = .next u ∧ u.status = 0 ∧ u.nib = n) ∧
  (∀ (b : Byte) (s t : State), exec (.decb b) s = .next t → t.status = 0 →
    ∃ u, exec (.encn t.nib) t = .next u ∧ u.obuf[0] = b)

/-- R91, R94: the word 30vvvvvv (hex) is ENCI v, which puts the cipher bytes of v's hexadecimal digits in OBUF, most
significant first, two per magnitude byte, and their number in OLEN. -/
def Obligations.EnciPutsTheDigitsMostSignificantFirst : Prop :=
  ∀ (v : Magnitude) (s : State),
    decode (0x30000000#32 ||| v.setWidth 32) = .ok (.enci v) ∧
    exec (.enci v) s = .next (serialised s ((digits v.toNat).map cipher))

/-- R96(b): two ENCI that leave the same output came from the same operand. -/
def Obligations.EnciLosesNoOperand : Prop :=
  ∀ (v w : Magnitude) (s u t x : State), exec (.enci v) s = .next t → exec (.enci w) u = .next x →
    t.olen = x.olen → t.obuf.toList.take t.olen.toNat = x.obuf.toList.take x.olen.toNat → v = w

/-- R92, R95: DECI of 0 to 3 pairs reads the magnitude bytes least significant first. -/
def Obligations.DeciReadsTheFirstPairAsLeastSignificant : Prop :=
  ∀ (s : State) (ms : List Byte), ms.length ≤ 3 → s.ilen.toNat = 2 * ms.length →
    buffered s = ms.flatMap pair →
    exec .deci s = .next { s with
      rval := BitVec.ofNat 24 (littleEndian ms), rk := BitVec.ofNat 2 ms.length, status := 0, finfo := 0 }

/-- R95, R155: DECI of more than 6 bytes raises TooLong, whatever the bytes are. -/
def Obligations.DeciOfMoreThanSixBytesIsTooLong : Prop :=
  ∀ s : State, 6 < s.ilen.toNat → exec .deci s = .next (afterRaise s 5 s.ilen 0)

/-- R95, R153: DECI of 1, 3 or 5 bytes raises OddLengthInput, whatever the bytes are. -/
def Obligations.DeciOfAnOddNumberOfBytesFaults : Prop :=
  ∀ s : State, s.ilen.toNat ≤ 6 → s.ilen.toNat % 2 = 1 → exec .deci s = .next (afterRaise s 3 s.ilen 0)

/-- R95, R151: DECI of an even number of bytes raises InvalidCipherByte at the lowest index whose byte is illegal. -/
def Obligations.DeciNamesTheFirstIllegalByte : Prop :=
  ∀ (s : State) (i : Fin 14), s.ilen.toNat ≤ 6 → s.ilen.toNat % 2 = 0 → i.val < s.ilen.toNat →
    ¬ legal s.ibuf[i] → (∀ j : Fin 14, j.val < i.val → legal s.ibuf[j]) →
    exec .deci s = .next (afterRaise s 1 (BitVec.ofNat 8 i.val) s.ibuf[i])

/-- R93: DECI of what ENCI put out gives the byte-reversed operand and its number of magnitude bytes. -/
def Obligations.DeciOfEnciIsTheByteReversedOperand : Prop :=
  ∀ (v : Magnitude) (s t u : State), exec (.enci v) s = .next t → u.ilen.toNat = t.olen.toNat →
    buffered u = t.obuf.toList.take t.olen.toNat →
    ∃ w, exec .deci u = .next w ∧ w.status = 0 ∧
      w.rval.toNat = bswap (magnitudeBytes v.toNat) v.toNat ∧ w.rk.toNat = magnitudeBytes v.toNat

/-- R102, R103: the word 5000ppRR (hex) is BCMD RR, pp, which puts the 8-byte command frame in OBUF, whatever the two
bytes are. -/
def Obligations.BcmdBuildsTheCommandFrame : Prop :=
  ∀ (reg pl : Byte) (s : State),
    decode (0x50000000#32 ||| (pl.setWidth 32 <<< 8) ||| reg.setWidth 32) = .ok (.bcmd reg pl) ∧
    exec (.bcmd reg pl) s = .next (serialised s (commandFrame reg pl))

/-- R101, R104: QCMD of an id with a declared length puts the command frame with that length in OBUF. -/
def Obligations.QcmdBuildsTheDeclaredQuery : Prop :=
  ∀ (reg : Byte) (k : Nat) (s : State), declaredLength reg = some k →
    exec (.qcmd reg) s = .next (serialised s (commandFrame reg (BitVec.ofNat 8 k)))

/-- R104, R154: QCMD of any other id raises UnknownRegister with IDX 0 and the id. -/
def Obligations.QcmdOfAnUnknownIdFaults : Prop :=
  ∀ (reg : Byte) (s : State), declaredLength reg = none → exec (.qcmd reg) s = .next (afterRaise s 4 0 reg)

/-- R105, R110: PFRM of a buffer made of head, register pair, 0 to 3 value pairs and trailer writes the six result
registers from them, least significant value byte first, and completes whatever the head and the trailer are. -/
def Obligations.PfrmDeliversTheFrame : Prop :=
  ∀ (s : State) (h0 h1 h2 h3 reg t0 t1 : Byte) (ms : List Byte), ms.length ≤ 3 →
    s.ilen.toNat = 8 + 2 * ms.length →
    buffered s = [h0, h1, h2, h3] ++ pair reg ++ ms.flatMap pair ++ [t0, t1] →
    exec .pfrm s = .next { s with
      rhead := BitVec.ofNat 32 (h0.toNat * 2 ^ 24 + h1.toNat * 2 ^ 16 + h2.toNat * 2 ^ 8 + h3.toNat)
      rreg := reg
      rval := BitVec.ofNat 24 (littleEndian ms)
      rk := BitVec.ofNat 2 ms.length
      rtail := BitVec.ofNat 16 (t0.toNat * 2 ^ 8 + t1.toNat)
      rflg := flags reg ms.length t0 t1
      status := 0
      finfo := 0 }

/-- R110, R152: PFRM of fewer than 8 bytes raises FrameTooShort, whatever the bytes are. -/
def Obligations.PfrmOfAShortBufferFaults : Prop :=
  ∀ s : State, s.ilen.toNat < 8 → exec .pfrm s = .next (afterRaise s 2 s.ilen 0)

/-- R110, R155: PFRM of more than 14 bytes raises TooLong, whatever the bytes are. -/
def Obligations.PfrmOfALongBufferFaults : Prop :=
  ∀ s : State, 14 < s.ilen.toNat → exec .pfrm s = .next (afterRaise s 5 s.ilen 0)

/-- R110, R151, R158: with 8 to 14 bytes, odd or even, PFRM tests the register bytes next, index 4 before index 5. -/
def Obligations.PfrmTestsTheRegisterBytesBeforeParity : Prop :=
  ∀ s : State, 8 ≤ s.ilen.toNat → s.ilen.toNat ≤ 14 →
    (¬ legal s.ibuf[4] → exec .pfrm s = .next (afterRaise s 1 4 s.ibuf[4])) ∧
    (legal s.ibuf[4] → ¬ legal s.ibuf[5] → exec .pfrm s = .next (afterRaise s 1 5 s.ibuf[5]))

/-- R110, R153, R158: with legal register bytes and 9, 11 or 13 bytes PFRM raises OddLengthInput with the value field's
length, whatever the value bytes are. -/
def Obligations.PfrmOfAnOddBufferFaults : Prop :=
  ∀ s : State, 8 ≤ s.ilen.toNat → s.ilen.toNat ≤ 14 → s.ilen.toNat % 2 = 1 →
    legal s.ibuf[4] → legal s.ibuf[5] → exec .pfrm s = .next (afterRaise s 3 (s.ilen - 8) 0)

/-- R110, R151, R158: with legal register bytes and an even length PFRM names the lowest index of the value field whose
byte is illegal; the last two bytes are never tested. -/
def Obligations.PfrmNamesTheFirstIllegalValueByte : Prop :=
  ∀ (s : State) (i : Fin 14), 8 ≤ s.ilen.toNat → s.ilen.toNat ≤ 14 → s.ilen.toNat % 2 = 0 →
    6 ≤ i.val → i.val + 2 < s.ilen.toNat → ¬ legal s.ibuf[i] →
    (∀ j : Fin 14, 4 ≤ j.val → j.val < i.val → legal s.ibuf[j]) →
    exec .pfrm s = .next (afterRaise s 1 (BitVec.ofNat 8 i.val) s.ibuf[i])

/-- R107: after a PFRM that completes, TVALID is 1 exactly when the last two bytes of the buffer are 14 and 13 in that
order. -/
def Obligations.TvalidIsTheOrderedTrailer : Prop :=
  ∀ s t : State, exec .pfrm s = .next t → t.status = 0 →
    (t.tvalidFlag = true ↔ ∃ body, buffered s = body ++ [0x14, 0x13])

/-- R108, R109: after a PFRM that completes, RCLS is the class of RREG, and LENOK is 1 exactly when the declared length
of RREG is RK. -/
def Obligations.RclsAndLenokDescribeTheRegister : Prop :=
  ∀ s t : State, exec .pfrm s = .next t → t.status = 0 →
    t.rclsField.toNat = (if t.rreg.toNat ≤ 48 then 0 else if t.rreg.toNat ≤ 63 then 1 else 2) ∧
    (t.lenokFlag = true ↔ declaredLength t.rreg = some t.rk.toNat)

/-- R20, R21, R112(d): after a DECI or PFRM that completes, RVAL is below 2^(8 RK); for a frame RK is half of the
buffer's length less 8. -/
def Obligations.RvalIsWithinRkBytes : Prop :=
  ∀ (s t : State) (i : Instr), (i = .deci ∨ i = .pfrm) → exec i s = .next t → t.status = 0 →
    t.rval.toNat < 2 ^ (8 * t.rk.toNat) ∧ (i = .pfrm → 8 + 2 * t.rk.toNat = s.ilen.toNat) ∧
    (i = .deci → 2 * t.rk.toNat = s.ilen.toNat)

/-- R105, R113: a PFRM that completes loses nothing of its buffer: head, register id, value with RK and trailer give
back every byte of it, so the response that carries them is unique. -/
def Obligations.ParsedBufferIsRebuiltFromTheResult : Prop :=
  ∀ s t : State, exec .pfrm s = .next t → t.status = 0 →
    buffered s =
      [t.rhead.extractLsb' 24 8, t.rhead.extractLsb' 16 8, t.rhead.extractLsb' 8 8, t.rhead.extractLsb' 0 8]
      ++ pair t.rreg
      ++ ((List.range t.rk.toNat).map (fun j => t.rval.extractLsb' (8 * j) 8)).flatMap pair
      ++ [t.rtail.extractLsb' 8 8, t.rtail.extractLsb' 0 8]

/-- R113: PFRM of the response a device makes for head, register id, value and k delivers exactly these, with
TVALID = 1. -/
def Obligations.ResponseFramesParseToWhatTheyCarry : Prop :=
  ∀ (s : State) (head : List Byte) (reg : Byte) (val k : Nat), head.length = 4 → k ≤ 3 → val < 2 ^ (8 * k) →
    s.ilen.toNat = 8 + 2 * k → buffered s = mkResp head reg val k →
    ∃ t, exec .pfrm s = .next t ∧ t.status = 0 ∧ t.rreg = reg ∧ t.rval.toNat = val ∧ t.rk.toNat = k ∧
      t.rtail = 0x1413 ∧ t.tvalidFlag = true ∧
      head = [t.rhead.extractLsb' 24 8, t.rhead.extractLsb' 16 8, t.rhead.extractLsb' 8 8, t.rhead.extractLsb' 0 8]

/-- R112(b): a command frame put back in the input buffer parses to its register id with k = 0, value 0, head CMD_HEAD,
and is never a valid response. -/
def Obligations.CommandFramesAreNeverValidResponses : Prop :=
  ∀ (reg pl : Byte) (s t u : State), exec (.bcmd reg pl) s = .next t → u.ilen = 8 →
    buffered u = t.obuf.toList →
    ∃ w, exec .pfrm u = .next w ∧ w.status = 0 ∧ w.rhead = 0x324B282F ∧ w.rreg = reg ∧ w.rk = 0 ∧ w.rval = 0 ∧
      w.tvalidFlag = false

/-- R112(c), R141: what PFRM does depends on the bytes in the input buffer alone: from two states with the same buffer
it raises the same fault, or delivers the same frame. -/
def Obligations.PfrmDependsOnTheBufferAlone : Prop :=
  ∀ s u t x : State, s.ilen = u.ilen → buffered s = buffered u → exec .pfrm s = .next t → exec .pfrm u = .next x →
    t.status = x.status ∧ t.finfo = x.finfo ∧
    (t.status = 0 → t.rhead = x.rhead ∧ t.rreg = x.rreg ∧ t.rval = x.rval ∧ t.rk = x.rk ∧ t.rtail = x.rtail ∧
      t.rflg = x.rflg)

/-- R120: a PUSH with ILEN below 14 stores the byte at the old ILEN and advances ILEN. -/
def Obligations.PushStoresAtTheEndOfTheBuffer : Prop :=
  ∀ (b : Byte) (s : State) (h : s.ilen.toNat < 14),
    exec (.push b) s = .next { s with ibuf := s.ibuf.set s.ilen.toNat b h, ilen := s.ilen + 1, status := 0, finfo := 0 }

/-- R16, R120: a PUSH with ILEN from 14 up stores nothing; ILEN advances up to 255 and stays there. -/
def Obligations.PushBeyondTheCapacityOnlyCounts : Prop :=
  ∀ (b : Byte) (s : State), 14 ≤ s.ilen.toNat →
    exec (.push b) s = .next { s with
      ilen := if s.ilen = 255 then 255 else s.ilen + 1, status := 0, finfo := 0 }

/-- R121: the word 90000000 (hex) is CLRI, which sets ILEN to 0; the bytes of IBUF and every other register stay. -/
def Obligations.ClriEmptiesTheBuffer : Prop :=
  decode 0x90000000 = .ok .clri ∧
  ∀ s : State, exec .clri s = .next { s with ilen := 0, status := 0, finfo := 0 }

/-- R122: the word A0000000 (hex) is CLRF, which clears FLOG; every other register stays. -/
def Obligations.ClrfClearsTheLog : Prop :=
  decode 0xA0000000 = .ok .clrf ∧
  ∀ s : State, exec .clrf s = .next { s with flog := 0, status := 0, finfo := 0 }

/-- R16, R71: the words of LOAD, carried out one by one from any state, leave ILEN = min(n, 255) and the first
min(n, 14) bytes in IBUF in order; IBUF beyond them, the results and the fault log stay. That the words leave the
host's list is the model's choice (assumption 4). -/
def Obligations.LoadPlacesTheBuffer : Prop :=
  ∀ (s : State) (bytes : List Byte) (rest : List HostAction), s.pending = commands (loadSeq bytes) ++ rest →
    ∃ t, core.run (bytes.length + 1) s = .next t ∧ t.ilen.toNat = min bytes.length 255 ∧
      (∀ i : Fin 14, t.ibuf[i] = bytes.getD i.val s.ibuf[i]) ∧
      t.pending = rest ∧ t.status = 0 ∧ t.finfo = 0 ∧
      t.flog = s.flog ∧ t.olen = s.olen ∧ t.obuf = s.obuf ∧ t.nib = s.nib ∧ t.rreg = s.rreg ∧ t.rval = s.rval ∧
      t.rk = s.rk ∧ t.rhead = s.rhead ∧ t.rtail = s.rtail ∧ t.rflg = s.rflg

/-- R159: an operation that faults changes STATUS, FINFO and the fault's bit of FLOG, and nothing else: no result is
partly applied. The same of any command word, legal or not; that the word leaves the host's list (assumption 4) and is
counted (assumption 3) is the model's choice. -/
def Obligations.FaultsChangeOnlyTheFaultRegisters : Prop :=
  (∀ (i : Instr) (s t : State), exec i s = .next t → t.status ≠ 0 →
    ∃ (code : Nat) (idx byte : Byte), 1 ≤ code ∧ code ≤ 5 ∧ t = afterRaise s code idx byte) ∧
  (∀ (s t : State) (cw : Word) (rest : List HostAction), s.pending = .command cw :: rest → step s = .next t →
    t.status ≠ 0 →
    ∃ (code : Nat) (idx byte : Byte), 1 ≤ code ∧ code ≤ 6 ∧ t = afterRaise (taken s rest) code idx byte)

/-- R165: which operation can raise which fault; IllegalCommand is raised by none. -/
def Obligations.OperationsRaiseOnlyTheirOwnFaults : Prop :=
  ∀ (i : Instr) (s t : State), exec i s = .next t → t.status.toNat = 0 ∨ t.status.toNat ∈ canRaise i

/-- R13, R14, R15: how an operation leaves the fault registers: STATUS at most 5; FINFO 0 and FLOG as it was when it
completes, but for CLRF; the fault's bit added to FLOG when it raises. -/
def Obligations.FaultRegistersDescribeTheLastOperation : Prop :=
  ∀ (i : Instr) (s t : State), exec i s = .next t →
    t.status.toNat ≤ 5 ∧ (t.status = 0 → t.finfo = 0) ∧
    t.flog = (if t.status = 0 then (if i = .clrf then 0 else s.flog) else s.flog ||| (1#7 <<< t.status.toNat))

/-- R27, R31: the frame of ENCN, ENCI, BCMD and QCMD: only OBUF below the new OLEN, OLEN, STATUS, FINFO and, on a fault,
FLOG change; on a fault OBUF and OLEN stay too. The model's own fields stay (assumptions 3, 4, 5). -/
def Obligations.SerialisersWriteOnlyTheOutputBuffer : Prop :=
  ∀ (i : Instr) (s t : State), serialiser i → exec i s = .next t →
    t.ilen = s.ilen ∧ t.ibuf = s.ibuf ∧ t.nib = s.nib ∧ t.rreg = s.rreg ∧ t.rval = s.rval ∧ t.rk = s.rk ∧
    t.rhead = s.rhead ∧ t.rtail = s.rtail ∧ t.rflg = s.rflg ∧ sameHost t s ∧
    (t.status = 0 → t.flog = s.flog ∧ ∀ j : Fin 8, t.olen.toNat ≤ j.val → t.obuf[j] = s.obuf[j]) ∧
    (t.status ≠ 0 → t.olen = s.olen ∧ t.obuf = s.obuf)

/-- R31: the frame of DECB, DECI and PFRM: they write no buffer and no length; DECB writes no result but NIB, DECI none
but RVAL and RK, PFRM does not write NIB; FLOG stays when they complete. The model's own fields stay (assumptions 3, 4,
5). -/
def Obligations.DecodersWriteOnlyTheirResults : Prop :=
  ∀ (i : Instr) (s t : State), (i = .deci ∨ i = .pfrm ∨ ∃ b, i = .decb b) → exec i s = .next t →
    t.ilen = s.ilen ∧ t.ibuf = s.ibuf ∧ t.olen = s.olen ∧ t.obuf = s.obuf ∧ sameHost t s ∧
    (t.status = 0 → t.flog = s.flog) ∧
    ((∃ b, i = .decb b) → t.rval = s.rval ∧ t.rk = s.rk) ∧
    (i ≠ .pfrm → t.rreg = s.rreg ∧ t.rhead = s.rhead ∧ t.rtail = s.rtail ∧ t.rflg = s.rflg) ∧
    ((∀ b, i ≠ .decb b) → t.nib = s.nib)

/-- R31: the frame of PUSH, CLRI and CLRF: no result register, OBUF or OLEN changes; only PUSH writes IBUF, and only at
index ILEN; CLRF does not write ILEN, PUSH and CLRI do not write FLOG; none of them raises. The model's own fields stay
(assumptions 3, 4, 5). -/
def Obligations.BufferOperationsWriteOnlyTheInputBufferOrTheLog : Prop :=
  ∀ (i : Instr) (s t : State), (i = .clri ∨ i = .clrf ∨ ∃ b, i = .push b) → exec i s = .next t →
    t.status = 0 ∧ t.olen = s.olen ∧ t.obuf = s.obuf ∧ t.nib = s.nib ∧ t.rreg = s.rreg ∧ t.rval = s.rval ∧
    t.rk = s.rk ∧ t.rhead = s.rhead ∧ t.rtail = s.rtail ∧ t.rflg = s.rflg ∧ sameHost t s ∧
    (i ≠ .clrf → t.flog = s.flog) ∧ (i = .clrf → t.ilen = s.ilen) ∧
    (∀ j : Fin 14, (j.val ≠ s.ilen.toNat ∨ i = .clri ∨ i = .clrf) → t.ibuf[j] = s.ibuf[j])

/-- R176: the operations of the two activities that share the block do not disturb each other's registers: in either
order they leave the same registers but STATUS and FINFO. -/
def Obligations.SerialisersAndDecodersCommute : Prop :=
  ∀ (i j : Instr) (s a b c d : State), serialiser i → readerOrLoader j →
    exec i s = .next a → exec j a = .next b → exec j s = .next c → exec i c = .next d →
    agreeButInfo b d

/-- R105, R107: after PFRM STATUS is 0 and TVALID is 1 exactly when the buffer was made of a head, a register pair, 0 to
3 value pairs and the trailer 14 13. That is the condition R132 makes necessary for applying a frame, which the model
names acceptable (assumption 13); R133 lets the host drop further frames. "Well formed" in the name is in the parser's
sense, with the empty value field (k = 0) that R67 does not count among a device's well-formed responses. -/
def Obligations.AcceptableFramesAreTheWellFormedOnes : Prop :=
  ∀ s t : State, exec .pfrm s = .next t →
    (t.acceptable = true ↔
      ∃ (head ms : List Byte) (reg : Byte), head.length = 4 ∧ ms.length ≤ 3 ∧ s.ilen.toNat = 8 + 2 * ms.length ∧
        buffered s = head ++ pair reg ++ ms.flatMap pair ++ [0x14, 0x13])

/-- R64, R130, R160, R163: the block never stops: every step, from every state, answers a next state, whether the host
resets, reads, issues a legal or an illegal word, or does nothing. That no machine fault exists is the model's inference
from R160 (assumption 10), that an action is one step its choice (assumption 4). -/
def Obligations.EveryStepAnswersANextState : Prop :=
  ∀ s : State, ∃ t, step s = .next t

/-- R13 to R17, R23, R24: from every state that meets the invariant, a step leads to a state that meets it: STATUS a
code with FINFO its own, FLOG bit 0 clear and the current fault logged, OLEN a length, RCLS never 3, TVALID only with
the trailer 14 13, LENOK only with an id that has a length. -/
def Obligations.EveryStepKeepsTheRegisterInvariant : Prop :=
  ∀ s t : State, s.Inv → step s = .next t → t.Inv

/-- The state after power-on meets the invariant (R10). -/
def Obligations.PowerOnMeetsTheRegisterInvariant : Prop :=
  State.reset.Inv

/-- R15, R122: CLRF is the only operation, and with reset the only event, that clears a bit of FLOG. The events are the
steps of the model, with the host's next action at the head of its list (assumption 4). -/
def Obligations.OnlyClrfAndResetClearTheLog : Prop :=
  (∀ (i : Instr) (s t : State) (c : Nat), exec i s = .next t → i ≠ .clrf →
    s.flog.getLsbD c = true → t.flog.getLsbD c = true) ∧
  (∀ (s t : State) (c : Nat), step s = .next t → s.flog.getLsbD c = true → t.flog.getLsbD c = false →
    ∃ rest, s.pending = .reset :: rest ∨ s.pending = .command 0xA0000000 :: rest)
end

