-- ==== Sys2Proof/Laws/Cipher.lean ====
section
/-! SUPPORT. What the cipher can do: the encode table and the decode table are inverse, and dec answers one of two
things. -/

namespace Sys2Proof.Machine

@[simp] theorem inv_sbox (n : Nibble) : inv (sbox n) = some n := by
  revert n; decide

theorem sbox_of_inv {b : Byte} {n : Nibble} (h : inv b = some n) : sbox n = b := by
  have all : ∀ b : Byte, (match inv b with | some n => decide (sbox n = b) | none => true) = true := by decide
  have := all b
  rw [h] at this
  simpa using this

/-- The cipher meets its inverse laws (R82). -/
theorem cipherLaws : CipherLaws := ⟨inv_sbox, fun _ _ => sbox_of_inv⟩

theorem inv_eq_some_iff {b : Byte} {n : Nibble} : inv b = some n ↔ b = sbox n :=
  ⟨fun h => (sbox_of_inv h).symm, fun h => h ▸ inv_sbox n⟩

theorem inv_eq_none_iff {b : Byte} : inv b = none ↔ ∀ n, b ≠ sbox n := by
  rw [Option.eq_none_iff_forall_ne_some]
  exact forall_congr' fun n => not_congr inv_eq_some_iff

theorem sbox_injective {m n : Nibble} (h : sbox m = sbox n) : m = n := by
  have := inv_sbox m
  rw [h, inv_sbox] at this
  exact (Option.some.inj this).symm

@[simp] theorem dec_sbox (n : Nibble) (idx : Nat) : dec (sbox n) idx = .ok n := by
  simp [dec]

theorem dec_illegal {b : Byte} (idx : Nat) (h : inv b = none) :
    dec b idx = .error (raised .invalidCipherByte idx b) := by
  simp [dec, h]

/-- All that dec can answer. -/
theorem dec_cases (b : Byte) (idx : Nat) :
    (∃ n, b = sbox n ∧ dec b idx = .ok n) ∨
    (inv b = none ∧ dec b idx = .error (raised .invalidCipherByte idx b)) := by
  cases h : inv b with
  | some n => exact .inl ⟨n, inv_eq_some_iff.mp h, by simp [dec, h]⟩
  | none => exact .inr ⟨rfl, dec_illegal idx h⟩

/-- The trailer's first byte is not a cipher byte (R65). -/
theorem sbox_ne_trailer (n : Nibble) : sbox n ≠ 0x14 := by
  revert n; decide

end Sys2Proof.Machine
end

