-- ==== Sys2Proof/Laws/Packing.lean ====
section
/-! SUPPORT. What integer packing can do: pairs, sequences of pairs, dec_int and the two byte orders. -/

namespace Sys2Proof.Machine

@[simp] theorem length_pack2 (m : Byte) : (pack2 m).length = 2 := rfl

@[simp] theorem length_flatMap_pack2 (ms : List Byte) : (ms.flatMap pack2).length = 2 * ms.length := by
  induction ms with
  | nil => rfl
  | cons m ms ih => simp [ih]; omega

theorem nibbles_append (m : Byte) : (m.extractLsb' 4 4 ++ m.extractLsb' 0 4 : Byte) = m := by
  revert m; decide

theorem high_of_append (hi lo : Nibble) : (hi ++ lo : Byte).extractLsb' 4 4 = hi := by
  revert hi lo; decide

theorem low_of_append (hi lo : Nibble) : (hi ++ lo : Byte).extractLsb' 0 4 = lo := by
  revert hi lo; decide

theorem pack2_append (hi lo : Nibble) : pack2 (hi ++ lo) = [sbox hi, sbox lo] := by
  simp only [pack2, high_of_append, low_of_append]

theorem pack2_injective {m n : Byte} (h : pack2 m = pack2 n) : m = n := by
  simp only [pack2, List.cons.injEq, and_true] at h
  rw [← nibbles_append m, ← nibbles_append n, sbox_injective h.1, sbox_injective h.2]

/-- All that unpack2 can answer: the byte whose pack2 the two bytes are, or the first illegal of them. -/
theorem unpack2_cases (c0 c1 : Byte) (idx : Nat) :
    (∃ m, [c0, c1] = pack2 m ∧ unpack2 c0 c1 idx = .ok m) ∨
    (inv c0 = none ∧ unpack2 c0 c1 idx = .error (raised .invalidCipherByte idx c0)) ∨
    ((∃ n, c0 = sbox n) ∧ inv c1 = none ∧ unpack2 c0 c1 idx = .error (raised .invalidCipherByte (idx + 1) c1)) := by
  rcases dec_cases c0 idx with ⟨hi, rfl, h0⟩ | ⟨n0, h0⟩
  · rcases dec_cases c1 (idx + 1) with ⟨lo, rfl, h1⟩ | ⟨n1, h1⟩
    · exact .inl ⟨hi ++ lo, (pack2_append hi lo).symm, by simp [unpack2]⟩
    · exact .inr (.inr ⟨⟨hi, rfl⟩, n1, by simp [unpack2, h1]⟩)
  · exact .inr (.inl ⟨n0, by simp [unpack2, h0]⟩)

theorem unpack2_pack2 (m : Byte) (idx : Nat) :
    unpack2 (sbox (m.extractLsb' 4 4)) (sbox (m.extractLsb' 0 4)) idx = .ok m := by
  simp [unpack2, nibbles_append]

@[simp] theorem unpackPairs_flatMap (ms : List Byte) (idx : Nat) : unpackPairs (ms.flatMap pack2) idx = .ok ms := by
  induction ms generalizing idx with
  | nil => rfl
  | cons m ms ih =>
    rw [List.flatMap_cons, pack2, List.cons_append, List.cons_append, List.nil_append]
    simp [unpackPairs, unpack2_pack2, ih]

/-- All that unpackPairs can answer on an even-length sequence: the bytes whose pairs the sequence is, or the fault at
the lowest index that holds an illegal byte. -/
theorem unpackPairs_cases : ∀ (s : List Byte) (idx : Nat), s.length % 2 = 0 →
    (∃ ms, s = ms.flatMap pack2 ∧ unpackPairs s idx = .ok ms) ∨
    (∃ l b r, s = l ++ b :: r ∧ (∀ c ∈ l, ∃ n, c = sbox n) ∧ inv b = none ∧
      unpackPairs s idx = .error (raised .invalidCipherByte (idx + l.length) b))
  | [], _, _ => .inl ⟨[], rfl, rfl⟩
  | [_], _, h => by simp at h
  | c0 :: c1 :: rest, idx, h => by
    rcases unpack2_cases c0 c1 idx with ⟨m, hm, h2⟩ | ⟨n0, h2⟩ | ⟨l0, n1, h2⟩
    · rcases unpackPairs_cases rest (idx + 2) (by simp only [List.length_cons] at h; omega) with ⟨ms, rfl, hr⟩ | ⟨l, b, r, rfl, hl, hb, hr⟩
      · refine .inl ⟨m :: ms, ?_, by simp [unpackPairs, h2, hr]⟩
        simp [List.flatMap_cons, ← hm]
      · refine .inr ⟨c0 :: c1 :: l, b, r, rfl, ?_, hb, ?_⟩
        · have both : (∃ n, c0 = sbox n) ∧ ∃ n, c1 = sbox n := by
            simp only [pack2, List.cons.injEq, and_true] at hm
            exact ⟨⟨_, hm.1⟩, ⟨_, hm.2⟩⟩
          intro c hc
          rcases List.mem_cons.mp hc with rfl | hc
          · exact both.1
          · rcases List.mem_cons.mp hc with rfl | hc
            · exact both.2
            · exact hl c hc
        · simp [unpackPairs, h2, hr]; congr 1; omega
    · exact .inr ⟨[], c0, c1 :: rest, rfl, by simp, n0, by simp [unpackPairs, h2]⟩
    · exact .inr ⟨[c0], c1, rest, rfl, by simpa using l0, n1, by simp [unpackPairs, h2]⟩

@[simp] theorem joinLE_nil : joinLE [] = 0 := rfl

/-- The or of R92 puts the bytes in disjoint places, so it is the sum. -/
theorem joinLE_cons (m : Byte) (ms : List Byte) : joinLE (m :: ms) = m.toNat + 256 * joinLE ms := by
  have h := Nat.two_pow_add_eq_or_of_lt (i := 8) (b := m.toNat) (by simpa using m.isLt) (joinLE ms)
  simp only [joinLE, Nat.shiftLeft_eq]
  rw [Nat.or_comm, Nat.mul_comm, ← h]
  omega

theorem joinLE_lt (ms : List Byte) : joinLE ms < 2 ^ (8 * ms.length) := by
  induction ms with
  | nil => simp
  | cons m ms ih =>
    have hm := m.isLt
    have e : (2 : Nat) ^ (8 * (m :: ms).length) = 256 * 2 ^ (8 * ms.length) := by
      simp [Nat.mul_add, Nat.pow_add, Nat.mul_comm]
    rw [joinLE_cons, e]
    omega

theorem decInt_odd {s : List Byte} (base : Nat) (h : s.length % 2 = 1) :
    decInt s base = .error (raised .oddLengthInput s.length 0) := by
  simp [decInt, h]

@[simp] theorem decInt_flatMap (ms : List Byte) (base : Nat) :
    decInt (ms.flatMap pack2) base = .ok (joinLE ms, ms.length) := by
  simp [decInt]

/-- All that dec_int can answer (R92). -/
theorem decInt_cases (s : List Byte) (base : Nat) :
    (s.length % 2 = 1 ∧ decInt s base = .error (raised .oddLengthInput s.length 0)) ∨
    (∃ ms, s = ms.flatMap pack2 ∧ decInt s base = .ok (joinLE ms, ms.length)) ∨
    (∃ l b r, s = l ++ b :: r ∧ s.length % 2 = 0 ∧ (∀ c ∈ l, ∃ n, c = sbox n) ∧ inv b = none ∧
      decInt s base = .error (raised .invalidCipherByte (base + l.length) b)) := by
  rcases Nat.mod_two_eq_zero_or_one s.length with h | h
  · rcases unpackPairs_cases s base h with ⟨ms, rfl, _⟩ | ⟨l, b, r, hs, hl, hb, hr⟩
    · exact .inr (.inl ⟨ms, rfl, decInt_flatMap ms base⟩)
    · exact .inr (.inr ⟨l, b, r, hs, h, hl, hb, by simp [decInt, h, hr]⟩)
  · exact .inl ⟨h, decInt_odd base h⟩

@[simp] theorem length_bytesBE (k v : Nat) : (bytesBE k v).length = k := by simp [bytesBE]

@[simp] theorem length_bytesLE (k v : Nat) : (bytesLE k v).length = k := by simp [bytesLE]

theorem bytesLE_succ (k v : Nat) : bytesLE (k + 1) v = BitVec.ofNat 8 v :: bytesLE k (v / 256) := by
  simp only [bytesLE, List.range_succ_eq_map, List.map_cons, List.map_map, Nat.mul_zero, Nat.shiftRight_zero]
  congr 1
  refine List.map_congr_left fun i _ => ?_
  simp only [Function.comp, Nat.shiftRight_eq_div_pow]
  rw [Nat.div_div_eq_div_mul, show 8 * Nat.succ i = 8 + 8 * i by omega, Nat.pow_add]

theorem joinLE_bytesLE (k v : Nat) : joinLE (bytesLE k v) = v % 2 ^ (8 * k) := by
  induction k generalizing v with
  | zero => simp [bytesLE, Nat.mod_one]
  | succ k ih =>
    rw [bytesLE_succ, joinLE_cons, ih, BitVec.toNat_ofNat, show 8 * (k + 1) = 8 + 8 * k by omega, Nat.pow_add,
      Nat.mod_mul]

@[simp] theorem length_encInt (v : Nat) : (encInt v).length = 2 * nbytes v := by simp [encInt, -List.length_flatMap]

theorem nbytes_cases (v : Nat) : nbytes v = 1 ∨ nbytes v = 2 ∨ nbytes v = 3 := by
  unfold nbytes; split
  · exact .inl rfl
  · split
    · exact .inr (.inl rfl)
    · exact .inr (.inr rfl)

/-- A byte is one pair (R102: the two forms of build_cmd agree). -/
theorem encInt_byte (b : Byte) : encInt b.toNat = pack2 b := by
  have h : b.toNat < 256 := b.isLt
  simp [encInt, nbytes, h, bytesBE]

theorem buildCmd_eq (reg pl : Byte) : buildCmd reg pl = cmdHeadBytes ++ pack2 reg ++ pack2 pl := by
  simp [buildCmd, encInt_byte]

@[simp] theorem length_buildCmd (reg pl : Byte) : (buildCmd reg pl).length = 8 := by
  simp [buildCmd_eq, cmdHeadBytes]

end Sys2Proof.Machine
end

