-- ==== Sys2Proof/Laws/Frame.lean ====
section
/-! SUPPORT. What the parser can do: the buffers it accepts with what it makes of them, and the faults it raises. -/

namespace Sys2Proof.Machine

/-- The parser on a buffer of its own shape (R105). -/
theorem parse_frame (head tail ms : List Byte) (reg : Byte) (hh : head.length = 4) (ht : tail.length = 2)
    (hk : ms.length ≤ 3) :
    parse (head ++ pack2 reg ++ ms.flatMap pack2 ++ tail) = .ok ⟨head, reg.toNat, joinLE ms, ms.length, tail⟩ := by
  have hlen : (head ++ pack2 reg ++ ms.flatMap pack2 ++ tail).length = 8 + 2 * ms.length := by
    simp [hh, ht]; omega
  have e : head ++ pack2 reg ++ ms.flatMap pack2 ++ tail = head ++ (pack2 reg ++ (ms.flatMap pack2 ++ tail)) := by
    simp
  have h0 : slice (head ++ pack2 reg ++ ms.flatMap pack2 ++ tail) 0 4 = head := by
    simp [slice, ← hh]
  have h4 : slice (head ++ pack2 reg ++ ms.flatMap pack2 ++ tail) 4 6 = pack2 reg := by
    rw [e, slice, List.drop_left' hh]
    exact List.take_left' (length_pack2 reg)
  have h6 : slice (head ++ pack2 reg ++ ms.flatMap pack2 ++ tail) 6
      ((head ++ pack2 reg ++ ms.flatMap pack2 ++ tail).length - 2) = ms.flatMap pack2 := by
    rw [hlen, e, slice, show 8 + 2 * ms.length - 2 - 6 = (ms.flatMap pack2).length by rw [length_flatMap_pack2]; omega,
      ← List.append_assoc, List.drop_left' (by simp [hh]), List.take_left]
  have ht' : slice (head ++ pack2 reg ++ ms.flatMap pack2 ++ tail)
      ((head ++ pack2 reg ++ ms.flatMap pack2 ++ tail).length - 2)
      (head ++ pack2 reg ++ ms.flatMap pack2 ++ tail).length = tail := by
    rw [slice, hlen, List.drop_left' (by simp [hh]; omega), List.take_of_length_le (by rw [ht]; omega)]
  have hr : decInt (pack2 reg) 4 = .ok (reg.toNat, 1) := by
    have := decInt_flatMap [reg] 4
    simpa [joinLE_cons] using this
  have l1 : ¬ 8 + 2 * ms.length < minLen := by simp [minLen]
  have l2 : ¬ lMax < 8 + 2 * ms.length := by simp [lMax, minLen, kMax]; omega
  have hlen' := hlen
  unfold parse
  rw [h4, h6, h0, ht', hlen, if_neg l1, if_neg l2, hr]
  simp

/-- A buffer of length L is head, register pair, value field and trailer (R47). -/
theorem frame_split (raw : List Byte) (h8 : 8 ≤ raw.length) :
    raw = slice raw 0 4 ++ slice raw 4 6 ++ slice raw 6 (raw.length - 2) ++ slice raw (raw.length - 2) raw.length := by
  have s1 : slice raw 0 4 ++ slice raw 4 6 = raw.take 6 := by
    rw [slice, slice, show (6 : Nat) = 4 + 2 by rfl, List.take_add]; simp
  have s2 : raw.take 6 ++ slice raw 6 (raw.length - 2) = raw.take (raw.length - 2) := by
    rw [slice, show raw.length - 2 = 6 + (raw.length - 2 - 6) by omega, List.take_add]; congr 2; omega
  have s3 : raw.take (raw.length - 2) ++ slice raw (raw.length - 2) raw.length = raw := by
    rw [slice, List.take_of_length_le (l := raw.drop _) (by simp), List.take_append_drop]
  rw [s1, s2, s3]

/-- All that the parser can answer on a buffer of 8 to 14 bytes, in the order in which it tests (R105, R158). -/
theorem parse_cases (raw : List Byte) (h8 : 8 ≤ raw.length) (h14 : raw.length ≤ 14) :
    (∃ head ms tail reg, head.length = 4 ∧ tail.length = 2 ∧ ms.length ≤ 3 ∧
      raw = head ++ pack2 reg ++ ms.flatMap pack2 ++ tail ∧
      parse raw = .ok ⟨head, reg.toNat, joinLE ms, ms.length, tail⟩) ∨
    (∃ l b r, slice raw 4 6 = l ++ b :: r ∧ (∀ c ∈ l, ∃ n, c = sbox n) ∧ inv b = none ∧
      parse raw = .error (raised .invalidCipherByte (4 + l.length) b)) ∨
    (∃ reg, slice raw 4 6 = pack2 reg ∧ raw.length % 2 = 1 ∧
      parse raw = .error (raised .oddLengthInput (raw.length - 8) 0)) ∨
    (∃ reg l b r, slice raw 4 6 = pack2 reg ∧ raw.length % 2 = 0 ∧
      slice raw 6 (raw.length - 2) = l ++ b :: r ∧ (∀ c ∈ l, ∃ n, c = sbox n) ∧ inv b = none ∧
      parse raw = .error (raised .invalidCipherByte (6 + l.length) b)) := by
  have g1 : ¬ raw.length < minLen := by simp [minLen]; omega
  have g2 : ¬ lMax < raw.length := by simp [lMax, minLen, kMax]; omega
  have len4 : (slice raw 4 6).length = 2 := by simp [slice]; omega
  have len6 : (slice raw 6 (raw.length - 2)).length = raw.length - 8 := by simp [slice]; omega
  rcases decInt_cases (slice raw 4 6) 4 with ⟨odd, _⟩ | ⟨rs, hrs, hreg⟩ | ⟨l, b, r, hs, _, hl, hb, he⟩
  · omega
  · obtain ⟨reg, rfl⟩ : ∃ reg, rs = [reg] := by
      have : 2 * rs.length = 2 := by rw [← length_flatMap_pack2, ← hrs, len4]
      exact List.length_eq_one_iff.mp (by omega)
    have hrs' : slice raw 4 6 = pack2 reg := by simpa using hrs
    rcases decInt_cases (slice raw 6 (raw.length - 2)) 6 with ⟨odd, he⟩ | ⟨ms, hms, _⟩ | ⟨l, b, r, hs, ev, hl, hb, he⟩
    · refine .inr (.inr (.inl ⟨reg, hrs', by omega, ?_⟩))
      unfold parse
      rw [if_neg g1, if_neg g2, hreg, he, len6]
    · have hk : ms.length ≤ 3 := by
        have : 2 * ms.length = raw.length - 8 := by rw [← length_flatMap_pack2, ← hms, len6]
        omega
      have hh : (slice raw 0 4).length = 4 := by simp [slice]; omega
      have ht : (slice raw (raw.length - 2) raw.length).length = 2 := by simp [slice]; omega
      have hraw := frame_split raw h8
      rw [hrs', hms] at hraw
      refine .inl ⟨_, ms, _, reg, hh, ht, hk, hraw, ?_⟩
      exact (congrArg parse hraw).trans (parse_frame _ _ ms reg hh ht hk)
    · refine .inr (.inr (.inr ⟨reg, l, b, r, hrs', by omega, hs, hl, hb, ?_⟩))
      unfold parse
      rw [if_neg g1, if_neg g2, hreg, he]
  · refine .inr (.inl ⟨l, b, r, hs, hl, hb, ?_⟩)
    unfold parse
    rw [if_neg g1, if_neg g2, he]

end Sys2Proof.Machine
end

