-- ==== Sys2Proof/Laws/State.lean ====
section
/-! SUPPORT. One lemma per field per update of State, each true by rfl, so that no proof unfolds a record update. -/

namespace Sys2Proof.Machine

variable (s : State)

@[simp] theorem State.raise_status (r : Raised) : (s.raise r).status = BitVec.ofNat 4 (faultCode r.kind) := rfl
@[simp] theorem State.raise_finfo (r : Raised) : (s.raise r).finfo = r.idx ++ r.byte := rfl
@[simp] theorem State.raise_flog (r : Raised) : (s.raise r).flog = s.flog ||| (1#7 <<< faultCode r.kind) := rfl
@[simp] theorem State.raise_ilen (r : Raised) : (s.raise r).ilen = s.ilen := rfl
@[simp] theorem State.raise_olen (r : Raised) : (s.raise r).olen = s.olen := rfl
@[simp] theorem State.raise_nib (r : Raised) : (s.raise r).nib = s.nib := rfl
@[simp] theorem State.raise_rreg (r : Raised) : (s.raise r).rreg = s.rreg := rfl
@[simp] theorem State.raise_rval (r : Raised) : (s.raise r).rval = s.rval := rfl
@[simp] theorem State.raise_rk (r : Raised) : (s.raise r).rk = s.rk := rfl
@[simp] theorem State.raise_rhead (r : Raised) : (s.raise r).rhead = s.rhead := rfl
@[simp] theorem State.raise_rtail (r : Raised) : (s.raise r).rtail = s.rtail := rfl
@[simp] theorem State.raise_rflg (r : Raised) : (s.raise r).rflg = s.rflg := rfl
@[simp] theorem State.raise_obuf (r : Raised) : (s.raise r).obuf = s.obuf := rfl
@[simp] theorem State.raise_ibuf (r : Raised) : (s.raise r).ibuf = s.ibuf := rfl
@[simp] theorem State.raise_pending (r : Raised) : (s.raise r).pending = s.pending := rfl
@[simp] theorem State.raise_reply (r : Raised) : (s.raise r).reply = s.reply := rfl
@[simp] theorem State.raise_epoch (r : Raised) : (s.raise r).epoch = s.epoch := rfl

@[simp] theorem State.complete_status : (s.complete).status = 0 := rfl
@[simp] theorem State.complete_finfo : (s.complete).finfo = 0 := rfl
@[simp] theorem State.complete_flog : (s.complete).flog = s.flog := rfl
@[simp] theorem State.complete_ilen : (s.complete).ilen = s.ilen := rfl
@[simp] theorem State.complete_olen : (s.complete).olen = s.olen := rfl
@[simp] theorem State.complete_nib : (s.complete).nib = s.nib := rfl
@[simp] theorem State.complete_rreg : (s.complete).rreg = s.rreg := rfl
@[simp] theorem State.complete_rval : (s.complete).rval = s.rval := rfl
@[simp] theorem State.complete_rk : (s.complete).rk = s.rk := rfl
@[simp] theorem State.complete_rhead : (s.complete).rhead = s.rhead := rfl
@[simp] theorem State.complete_rtail : (s.complete).rtail = s.rtail := rfl
@[simp] theorem State.complete_rflg : (s.complete).rflg = s.rflg := rfl
@[simp] theorem State.complete_obuf : (s.complete).obuf = s.obuf := rfl
@[simp] theorem State.complete_ibuf : (s.complete).ibuf = s.ibuf := rfl
@[simp] theorem State.complete_pending : (s.complete).pending = s.pending := rfl
@[simp] theorem State.complete_reply : (s.complete).reply = s.reply := rfl
@[simp] theorem State.complete_epoch : (s.complete).epoch = s.epoch := rfl

@[simp] theorem State.emit_status (out : List Byte) : (s.emit out).status = s.status := rfl
@[simp] theorem State.emit_finfo (out : List Byte) : (s.emit out).finfo = s.finfo := rfl
@[simp] theorem State.emit_flog (out : List Byte) : (s.emit out).flog = s.flog := rfl
@[simp] theorem State.emit_ilen (out : List Byte) : (s.emit out).ilen = s.ilen := rfl
@[simp] theorem State.emit_olen (out : List Byte) : (s.emit out).olen = BitVec.ofNat 4 out.length := rfl
@[simp] theorem State.emit_nib (out : List Byte) : (s.emit out).nib = s.nib := rfl
@[simp] theorem State.emit_rreg (out : List Byte) : (s.emit out).rreg = s.rreg := rfl
@[simp] theorem State.emit_rval (out : List Byte) : (s.emit out).rval = s.rval := rfl
@[simp] theorem State.emit_rk (out : List Byte) : (s.emit out).rk = s.rk := rfl
@[simp] theorem State.emit_rhead (out : List Byte) : (s.emit out).rhead = s.rhead := rfl
@[simp] theorem State.emit_rtail (out : List Byte) : (s.emit out).rtail = s.rtail := rfl
@[simp] theorem State.emit_rflg (out : List Byte) : (s.emit out).rflg = s.rflg := rfl
@[simp] theorem State.emit_obuf (out : List Byte) : (s.emit out).obuf = writeBytes s.obuf 0 out := rfl
@[simp] theorem State.emit_ibuf (out : List Byte) : (s.emit out).ibuf = s.ibuf := rfl
@[simp] theorem State.emit_pending (out : List Byte) : (s.emit out).pending = s.pending := rfl
@[simp] theorem State.emit_reply (out : List Byte) : (s.emit out).reply = s.reply := rfl
@[simp] theorem State.emit_epoch (out : List Byte) : (s.emit out).epoch = s.epoch := rfl

@[simp] theorem State.showNibble_status (n : Nibble) : (s.showNibble n).status = s.status := rfl
@[simp] theorem State.showNibble_finfo (n : Nibble) : (s.showNibble n).finfo = s.finfo := rfl
@[simp] theorem State.showNibble_flog (n : Nibble) : (s.showNibble n).flog = s.flog := rfl
@[simp] theorem State.showNibble_ilen (n : Nibble) : (s.showNibble n).ilen = s.ilen := rfl
@[simp] theorem State.showNibble_olen (n : Nibble) : (s.showNibble n).olen = s.olen := rfl
@[simp] theorem State.showNibble_nib (n : Nibble) : (s.showNibble n).nib = n := rfl
@[simp] theorem State.showNibble_rreg (n : Nibble) : (s.showNibble n).rreg = s.rreg := rfl
@[simp] theorem State.showNibble_rval (n : Nibble) : (s.showNibble n).rval = s.rval := rfl
@[simp] theorem State.showNibble_rk (n : Nibble) : (s.showNibble n).rk = s.rk := rfl
@[simp] theorem State.showNibble_rhead (n : Nibble) : (s.showNibble n).rhead = s.rhead := rfl
@[simp] theorem State.showNibble_rtail (n : Nibble) : (s.showNibble n).rtail = s.rtail := rfl
@[simp] theorem State.showNibble_rflg (n : Nibble) : (s.showNibble n).rflg = s.rflg := rfl
@[simp] theorem State.showNibble_obuf (n : Nibble) : (s.showNibble n).obuf = s.obuf := rfl
@[simp] theorem State.showNibble_ibuf (n : Nibble) : (s.showNibble n).ibuf = s.ibuf := rfl
@[simp] theorem State.showNibble_pending (n : Nibble) : (s.showNibble n).pending = s.pending := rfl
@[simp] theorem State.showNibble_reply (n : Nibble) : (s.showNibble n).reply = s.reply := rfl
@[simp] theorem State.showNibble_epoch (n : Nibble) : (s.showNibble n).epoch = s.epoch := rfl

@[simp] theorem State.showInteger_status (val k : Nat) : (s.showInteger val k).status = s.status := rfl
@[simp] theorem State.showInteger_finfo (val k : Nat) : (s.showInteger val k).finfo = s.finfo := rfl
@[simp] theorem State.showInteger_flog (val k : Nat) : (s.showInteger val k).flog = s.flog := rfl
@[simp] theorem State.showInteger_ilen (val k : Nat) : (s.showInteger val k).ilen = s.ilen := rfl
@[simp] theorem State.showInteger_olen (val k : Nat) : (s.showInteger val k).olen = s.olen := rfl
@[simp] theorem State.showInteger_nib (val k : Nat) : (s.showInteger val k).nib = s.nib := rfl
@[simp] theorem State.showInteger_rreg (val k : Nat) : (s.showInteger val k).rreg = s.rreg := rfl
@[simp] theorem State.showInteger_rval (val k : Nat) : (s.showInteger val k).rval = BitVec.ofNat 24 val := rfl
@[simp] theorem State.showInteger_rk (val k : Nat) : (s.showInteger val k).rk = BitVec.ofNat 2 k := rfl
@[simp] theorem State.showInteger_rhead (val k : Nat) : (s.showInteger val k).rhead = s.rhead := rfl
@[simp] theorem State.showInteger_rtail (val k : Nat) : (s.showInteger val k).rtail = s.rtail := rfl
@[simp] theorem State.showInteger_rflg (val k : Nat) : (s.showInteger val k).rflg = s.rflg := rfl
@[simp] theorem State.showInteger_obuf (val k : Nat) : (s.showInteger val k).obuf = s.obuf := rfl
@[simp] theorem State.showInteger_ibuf (val k : Nat) : (s.showInteger val k).ibuf = s.ibuf := rfl
@[simp] theorem State.showInteger_pending (val k : Nat) : (s.showInteger val k).pending = s.pending := rfl
@[simp] theorem State.showInteger_reply (val k : Nat) : (s.showInteger val k).reply = s.reply := rfl
@[simp] theorem State.showInteger_epoch (val k : Nat) : (s.showInteger val k).epoch = s.epoch := rfl

@[simp] theorem State.showFrame_status (f : Frame) : (s.showFrame f).status = s.status := rfl
@[simp] theorem State.showFrame_finfo (f : Frame) : (s.showFrame f).finfo = s.finfo := rfl
@[simp] theorem State.showFrame_flog (f : Frame) : (s.showFrame f).flog = s.flog := rfl
@[simp] theorem State.showFrame_ilen (f : Frame) : (s.showFrame f).ilen = s.ilen := rfl
@[simp] theorem State.showFrame_olen (f : Frame) : (s.showFrame f).olen = s.olen := rfl
@[simp] theorem State.showFrame_nib (f : Frame) : (s.showFrame f).nib = s.nib := rfl
@[simp] theorem State.showFrame_rreg (f : Frame) : (s.showFrame f).rreg = BitVec.ofNat 8 f.reg := rfl
@[simp] theorem State.showFrame_rval (f : Frame) : (s.showFrame f).rval = BitVec.ofNat 24 f.val := rfl
@[simp] theorem State.showFrame_rk (f : Frame) : (s.showFrame f).rk = BitVec.ofNat 2 f.k := rfl
@[simp] theorem State.showFrame_rhead (f : Frame) : (s.showFrame f).rhead = BitVec.ofNat 32 (joinBE f.head) := rfl
@[simp] theorem State.showFrame_rtail (f : Frame) : (s.showFrame f).rtail = BitVec.ofNat 16 (joinBE f.tail) := rfl
@[simp] theorem State.showFrame_rflg (f : Frame) : (s.showFrame f).rflg = frameFlags f.tail (BitVec.ofNat 8 f.reg) f.k := rfl
@[simp] theorem State.showFrame_obuf (f : Frame) : (s.showFrame f).obuf = s.obuf := rfl
@[simp] theorem State.showFrame_ibuf (f : Frame) : (s.showFrame f).ibuf = s.ibuf := rfl
@[simp] theorem State.showFrame_pending (f : Frame) : (s.showFrame f).pending = s.pending := rfl
@[simp] theorem State.showFrame_reply (f : Frame) : (s.showFrame f).reply = s.reply := rfl
@[simp] theorem State.showFrame_epoch (f : Frame) : (s.showFrame f).epoch = s.epoch := rfl

@[simp] theorem State.pushByte_status (b : Byte) : (s.pushByte b).status = s.status := rfl
@[simp] theorem State.pushByte_finfo (b : Byte) : (s.pushByte b).finfo = s.finfo := rfl
@[simp] theorem State.pushByte_flog (b : Byte) : (s.pushByte b).flog = s.flog := rfl
@[simp] theorem State.pushByte_ilen (b : Byte) : (s.pushByte b).ilen = BitVec.ofNat 8 (min (s.ilen.toNat + 1) ilenMax) := rfl
@[simp] theorem State.pushByte_olen (b : Byte) : (s.pushByte b).olen = s.olen := rfl
@[simp] theorem State.pushByte_nib (b : Byte) : (s.pushByte b).nib = s.nib := rfl
@[simp] theorem State.pushByte_rreg (b : Byte) : (s.pushByte b).rreg = s.rreg := rfl
@[simp] theorem State.pushByte_rval (b : Byte) : (s.pushByte b).rval = s.rval := rfl
@[simp] theorem State.pushByte_rk (b : Byte) : (s.pushByte b).rk = s.rk := rfl
@[simp] theorem State.pushByte_rhead (b : Byte) : (s.pushByte b).rhead = s.rhead := rfl
@[simp] theorem State.pushByte_rtail (b : Byte) : (s.pushByte b).rtail = s.rtail := rfl
@[simp] theorem State.pushByte_rflg (b : Byte) : (s.pushByte b).rflg = s.rflg := rfl
@[simp] theorem State.pushByte_obuf (b : Byte) : (s.pushByte b).obuf = s.obuf := rfl
@[simp] theorem State.pushByte_ibuf (b : Byte) : (s.pushByte b).ibuf = if s.ilen.toNat < lMax then s.ibuf.setIfInBounds s.ilen.toNat b else s.ibuf := rfl
@[simp] theorem State.pushByte_pending (b : Byte) : (s.pushByte b).pending = s.pending := rfl
@[simp] theorem State.pushByte_reply (b : Byte) : (s.pushByte b).reply = s.reply := rfl
@[simp] theorem State.pushByte_epoch (b : Byte) : (s.pushByte b).epoch = s.epoch := rfl

@[simp] theorem State.emptyInput_status : (s.emptyInput).status = s.status := rfl
@[simp] theorem State.emptyInput_finfo : (s.emptyInput).finfo = s.finfo := rfl
@[simp] theorem State.emptyInput_flog : (s.emptyInput).flog = s.flog := rfl
@[simp] theorem State.emptyInput_ilen : (s.emptyInput).ilen = 0 := rfl
@[simp] theorem State.emptyInput_olen : (s.emptyInput).olen = s.olen := rfl
@[simp] theorem State.emptyInput_nib : (s.emptyInput).nib = s.nib := rfl
@[simp] theorem State.emptyInput_rreg : (s.emptyInput).rreg = s.rreg := rfl
@[simp] theorem State.emptyInput_rval : (s.emptyInput).rval = s.rval := rfl
@[simp] theorem State.emptyInput_rk : (s.emptyInput).rk = s.rk := rfl
@[simp] theorem State.emptyInput_rhead : (s.emptyInput).rhead = s.rhead := rfl
@[simp] theorem State.emptyInput_rtail : (s.emptyInput).rtail = s.rtail := rfl
@[simp] theorem State.emptyInput_rflg : (s.emptyInput).rflg = s.rflg := rfl
@[simp] theorem State.emptyInput_obuf : (s.emptyInput).obuf = s.obuf := rfl
@[simp] theorem State.emptyInput_ibuf : (s.emptyInput).ibuf = s.ibuf := rfl
@[simp] theorem State.emptyInput_pending : (s.emptyInput).pending = s.pending := rfl
@[simp] theorem State.emptyInput_reply : (s.emptyInput).reply = s.reply := rfl
@[simp] theorem State.emptyInput_epoch : (s.emptyInput).epoch = s.epoch := rfl

@[simp] theorem State.clearLog_status : (s.clearLog).status = s.status := rfl
@[simp] theorem State.clearLog_finfo : (s.clearLog).finfo = s.finfo := rfl
@[simp] theorem State.clearLog_flog : (s.clearLog).flog = 0 := rfl
@[simp] theorem State.clearLog_ilen : (s.clearLog).ilen = s.ilen := rfl
@[simp] theorem State.clearLog_olen : (s.clearLog).olen = s.olen := rfl
@[simp] theorem State.clearLog_nib : (s.clearLog).nib = s.nib := rfl
@[simp] theorem State.clearLog_rreg : (s.clearLog).rreg = s.rreg := rfl
@[simp] theorem State.clearLog_rval : (s.clearLog).rval = s.rval := rfl
@[simp] theorem State.clearLog_rk : (s.clearLog).rk = s.rk := rfl
@[simp] theorem State.clearLog_rhead : (s.clearLog).rhead = s.rhead := rfl
@[simp] theorem State.clearLog_rtail : (s.clearLog).rtail = s.rtail := rfl
@[simp] theorem State.clearLog_rflg : (s.clearLog).rflg = s.rflg := rfl
@[simp] theorem State.clearLog_obuf : (s.clearLog).obuf = s.obuf := rfl
@[simp] theorem State.clearLog_ibuf : (s.clearLog).ibuf = s.ibuf := rfl
@[simp] theorem State.clearLog_pending : (s.clearLog).pending = s.pending := rfl
@[simp] theorem State.clearLog_reply : (s.clearLog).reply = s.reply := rfl
@[simp] theorem State.clearLog_epoch : (s.clearLog).epoch = s.epoch := rfl

@[simp] theorem State.assertReset_status : (s.assertReset).status = 0 := rfl
@[simp] theorem State.assertReset_finfo : (s.assertReset).finfo = 0 := rfl
@[simp] theorem State.assertReset_flog : (s.assertReset).flog = 0 := rfl
@[simp] theorem State.assertReset_ilen : (s.assertReset).ilen = 0 := rfl
@[simp] theorem State.assertReset_olen : (s.assertReset).olen = 0 := rfl
@[simp] theorem State.assertReset_nib : (s.assertReset).nib = Config.resetNib s.epoch s.nib := rfl
@[simp] theorem State.assertReset_rreg : (s.assertReset).rreg = Config.resetRreg s.epoch s.rreg := rfl
@[simp] theorem State.assertReset_rval : (s.assertReset).rval = Config.resetRval s.epoch s.rval := rfl
@[simp] theorem State.assertReset_rk : (s.assertReset).rk = 0 := rfl
@[simp] theorem State.assertReset_rhead : (s.assertReset).rhead = Config.resetRhead s.epoch s.rhead := rfl
@[simp] theorem State.assertReset_rtail : (s.assertReset).rtail = Config.resetRtail s.epoch s.rtail := rfl
@[simp] theorem State.assertReset_rflg : (s.assertReset).rflg = 0 := rfl
@[simp] theorem State.assertReset_obuf : (s.assertReset).obuf = s.obuf.mapIdx (fun i b => Config.resetObuf s.epoch i b) := rfl
@[simp] theorem State.assertReset_ibuf : (s.assertReset).ibuf = s.ibuf.mapIdx (fun i b => Config.resetIbuf s.epoch i b) := rfl
@[simp] theorem State.assertReset_pending : (s.assertReset).pending = s.pending := rfl
@[simp] theorem State.assertReset_reply : (s.assertReset).reply = s.reply := rfl
@[simp] theorem State.assertReset_epoch : (s.assertReset).epoch = s.epoch := rfl

@[simp] theorem State.hostRead_status (n : RegNum) : (s.hostRead n).status = s.status := rfl
@[simp] theorem State.hostRead_finfo (n : RegNum) : (s.hostRead n).finfo = s.finfo := rfl
@[simp] theorem State.hostRead_flog (n : RegNum) : (s.hostRead n).flog = s.flog := rfl
@[simp] theorem State.hostRead_ilen (n : RegNum) : (s.hostRead n).ilen = s.ilen := rfl
@[simp] theorem State.hostRead_olen (n : RegNum) : (s.hostRead n).olen = s.olen := rfl
@[simp] theorem State.hostRead_nib (n : RegNum) : (s.hostRead n).nib = s.nib := rfl
@[simp] theorem State.hostRead_rreg (n : RegNum) : (s.hostRead n).rreg = s.rreg := rfl
@[simp] theorem State.hostRead_rval (n : RegNum) : (s.hostRead n).rval = s.rval := rfl
@[simp] theorem State.hostRead_rk (n : RegNum) : (s.hostRead n).rk = s.rk := rfl
@[simp] theorem State.hostRead_rhead (n : RegNum) : (s.hostRead n).rhead = s.rhead := rfl
@[simp] theorem State.hostRead_rtail (n : RegNum) : (s.hostRead n).rtail = s.rtail := rfl
@[simp] theorem State.hostRead_rflg (n : RegNum) : (s.hostRead n).rflg = s.rflg := rfl
@[simp] theorem State.hostRead_obuf (n : RegNum) : (s.hostRead n).obuf = s.obuf := rfl
@[simp] theorem State.hostRead_ibuf (n : RegNum) : (s.hostRead n).ibuf = s.ibuf := rfl
@[simp] theorem State.hostRead_pending (n : RegNum) : (s.hostRead n).pending = s.pending := rfl
@[simp] theorem State.hostRead_reply (n : RegNum) : (s.hostRead n).reply = some (s.readPort n) := rfl
@[simp] theorem State.hostRead_epoch (n : RegNum) : (s.hostRead n).epoch = s.epoch := rfl

@[simp] theorem State.take_status (rest : List HostAction) : (s.take rest).status = s.status := rfl
@[simp] theorem State.take_finfo (rest : List HostAction) : (s.take rest).finfo = s.finfo := rfl
@[simp] theorem State.take_flog (rest : List HostAction) : (s.take rest).flog = s.flog := rfl
@[simp] theorem State.take_ilen (rest : List HostAction) : (s.take rest).ilen = s.ilen := rfl
@[simp] theorem State.take_olen (rest : List HostAction) : (s.take rest).olen = s.olen := rfl
@[simp] theorem State.take_nib (rest : List HostAction) : (s.take rest).nib = s.nib := rfl
@[simp] theorem State.take_rreg (rest : List HostAction) : (s.take rest).rreg = s.rreg := rfl
@[simp] theorem State.take_rval (rest : List HostAction) : (s.take rest).rval = s.rval := rfl
@[simp] theorem State.take_rk (rest : List HostAction) : (s.take rest).rk = s.rk := rfl
@[simp] theorem State.take_rhead (rest : List HostAction) : (s.take rest).rhead = s.rhead := rfl
@[simp] theorem State.take_rtail (rest : List HostAction) : (s.take rest).rtail = s.rtail := rfl
@[simp] theorem State.take_rflg (rest : List HostAction) : (s.take rest).rflg = s.rflg := rfl
@[simp] theorem State.take_obuf (rest : List HostAction) : (s.take rest).obuf = s.obuf := rfl
@[simp] theorem State.take_ibuf (rest : List HostAction) : (s.take rest).ibuf = s.ibuf := rfl
@[simp] theorem State.take_pending (rest : List HostAction) : (s.take rest).pending = rest := rfl
@[simp] theorem State.take_reply (rest : List HostAction) : (s.take rest).reply = s.reply := rfl
@[simp] theorem State.take_epoch (rest : List HostAction) : (s.take rest).epoch = s.epoch + 1 := rfl

@[simp] theorem State.takeRead_status (rest : List HostAction) : (s.takeRead rest).status = s.status := rfl
@[simp] theorem State.takeRead_finfo (rest : List HostAction) : (s.takeRead rest).finfo = s.finfo := rfl
@[simp] theorem State.takeRead_flog (rest : List HostAction) : (s.takeRead rest).flog = s.flog := rfl
@[simp] theorem State.takeRead_ilen (rest : List HostAction) : (s.takeRead rest).ilen = s.ilen := rfl
@[simp] theorem State.takeRead_olen (rest : List HostAction) : (s.takeRead rest).olen = s.olen := rfl
@[simp] theorem State.takeRead_nib (rest : List HostAction) : (s.takeRead rest).nib = s.nib := rfl
@[simp] theorem State.takeRead_rreg (rest : List HostAction) : (s.takeRead rest).rreg = s.rreg := rfl
@[simp] theorem State.takeRead_rval (rest : List HostAction) : (s.takeRead rest).rval = s.rval := rfl
@[simp] theorem State.takeRead_rk (rest : List HostAction) : (s.takeRead rest).rk = s.rk := rfl
@[simp] theorem State.takeRead_rhead (rest : List HostAction) : (s.takeRead rest).rhead = s.rhead := rfl
@[simp] theorem State.takeRead_rtail (rest : List HostAction) : (s.takeRead rest).rtail = s.rtail := rfl
@[simp] theorem State.takeRead_rflg (rest : List HostAction) : (s.takeRead rest).rflg = s.rflg := rfl
@[simp] theorem State.takeRead_obuf (rest : List HostAction) : (s.takeRead rest).obuf = s.obuf := rfl
@[simp] theorem State.takeRead_ibuf (rest : List HostAction) : (s.takeRead rest).ibuf = s.ibuf := rfl
@[simp] theorem State.takeRead_pending (rest : List HostAction) : (s.takeRead rest).pending = rest := rfl
@[simp] theorem State.takeRead_reply (rest : List HostAction) : (s.takeRead rest).reply = s.reply := rfl
@[simp] theorem State.takeRead_epoch (rest : List HostAction) : (s.takeRead rest).epoch = s.epoch := rfl

end Sys2Proof.Machine
end

