-- ==== Sys2Proof/Laws/Ops.lean ====
section
/-! SUPPORT. What the shared operations can do: how an operation ends, what a serialiser writes, what the input buffer
gives to DECI and PFRM, what each operation commits, and what a step can be. -/

namespace Sys2Proof.Machine

/-- All that the end of an operation can be (R31, R159). -/
theorem State.commit_next {s t : State} {r : Except Raised State} (h : s.commit r = .next t) :
    (∃ u, r = .ok u ∧ t = u.complete) ∨ (∃ e, r = .error e ∧ t = s.raise e) := by
  cases r with
  | ok u => exact .inl ⟨u, rfl, by simpa [State.commit] using h.symm⟩
  | error e => exact .inr ⟨e, rfl, by simpa [State.commit] using h.symm⟩

@[simp] theorem State.commit_ok (s u : State) : s.commit (.ok u) = .next u.complete := rfl

@[simp] theorem State.commit_error (s : State) (e : Raised) : s.commit (.error e) = .next (s.raise e) := rfl

theorem exec_encn (n : Nibble) (s : State) : exec (.encn n) s = .next (s.emit [sbox n]).complete := rfl

theorem exec_decb (b : Byte) (s : State) : exec (.decb b) s = s.commit ((dec b 0).map s.showNibble) := rfl

theorem exec_enci (v : Magnitude) (s : State) : exec (.enci v) s = .next (s.emit (encInt v.toNat)).complete := rfl

theorem exec_deci (s : State) :
    exec .deci s = s.commit (s.inputInteger.map (fun r => s.showInteger r.1 r.2)) := rfl

theorem exec_bcmd (reg pl : Byte) (s : State) : exec (.bcmd reg pl) s = .next (s.emit (buildCmd reg pl)).complete := rfl

theorem exec_qcmd_some {reg : Byte} {k : Nat} (s : State) (h : plen reg = some k) :
    exec (.qcmd reg) s = .next (s.emit (buildCmd reg (BitVec.ofNat 8 k))).complete := by
  simp only [exec, execQcmd, h]; rfl

theorem exec_qcmd_none {reg : Byte} (s : State) (h : plen reg = none) :
    exec (.qcmd reg) s = .next (s.raise (raised .unknownRegister 0 reg)) := by
  simp only [exec, execQcmd, h]; rfl

theorem exec_pfrm (s : State) : exec .pfrm s = s.commit (s.inputFrame.map s.showFrame) := rfl

theorem exec_push (b : Byte) (s : State) : exec (.push b) s = .next (s.pushByte b).complete := rfl

theorem exec_clri (s : State) : exec .clri s = .next s.emptyInput.complete := rfl

theorem exec_clrf (s : State) : exec .clrf s = .next s.clearLog.complete := rfl

/-- What a serialiser does: it completes with some output, or, for QCMD, raises UnknownRegister. -/
theorem exec_serialiser_cases {i : Instr}
    (h : (∃ n, i = .encn n) ∨ (∃ v, i = .enci v) ∨ (∃ r p, i = .bcmd r p) ∨ (∃ r, i = .qcmd r)) :
    (∃ out, ∀ s : State, exec i s = .next (s.emit out).complete) ∨
    (∃ reg, i = .qcmd reg ∧ ∀ s : State, exec i s = .next (s.raise (raised .unknownRegister 0 reg))) := by
  rcases h with ⟨n, rfl⟩ | ⟨v, rfl⟩ | ⟨r, p, rfl⟩ | ⟨r, rfl⟩
  · exact .inl ⟨_, exec_encn n⟩
  · exact .inl ⟨_, exec_enci v⟩
  · exact .inl ⟨_, exec_bcmd r p⟩
  · cases hp : plen r with
    | none => exact .inr ⟨r, rfl, fun s => exec_qcmd_none s hp⟩
    | some k => exact .inl ⟨_, fun s => exec_qcmd_some s hp⟩

/-- Each byte of OBUF after a serialiser's writes from index j. -/
theorem writeBytes_getElem (out : List Byte) (buf : Vector Byte 8) (j i : Nat) (hi : i < 8) :
    (writeBytes buf j out)[i] = if j ≤ i then out.getD (i - j) buf[i] else buf[i] := by
  induction out generalizing buf j with
  | nil => simp [writeBytes]
  | cons b rest ih =>
    rw [writeBytes, ih, Vector.getElem_setIfInBounds hi]
    by_cases h1 : j = i
    · subst h1; simp
    · by_cases h2 : j ≤ i
      · rw [if_pos h2, if_pos (by omega), if_neg h1, show i - j = (i - (j + 1)) + 1 by omega]
        simp
      · rw [if_neg h2, if_neg (by omega), if_neg h1]

theorem State.length_input (s : State) {n : Nat} (h : n ≤ 14) : (s.input n).length = n := by
  simp [State.input, h]

/-- All that DECI's operand can be (R95). -/
theorem State.inputInteger_cases (s : State) :
    (6 < s.ilen.toNat ∧ s.inputInteger = .error (raised .tooLong s.ilen.toNat 0)) ∨
    (s.ilen.toNat ≤ 6 ∧ s.ilen.toNat % 2 = 1 ∧ s.inputInteger = .error (raised .oddLengthInput s.ilen.toNat 0)) ∨
    (∃ ms, ms.length ≤ 3 ∧ s.ilen.toNat = 2 * ms.length ∧ s.input s.ilen.toNat = ms.flatMap pack2 ∧
      s.inputInteger = .ok (joinLE ms, ms.length)) ∨
    (∃ l b r, s.ilen.toNat ≤ 6 ∧ s.ilen.toNat % 2 = 0 ∧ s.input s.ilen.toNat = l ++ b :: r ∧
      (∀ c ∈ l, ∃ n, c = sbox n) ∧ inv b = none ∧
      s.inputInteger = .error (raised .invalidCipherByte l.length b)) := by
  by_cases h6 : 6 < s.ilen.toNat
  · exact .inl ⟨h6, by simp [State.inputInteger, kMax, h6]⟩
  · have hlen := s.length_input (n := s.ilen.toNat) (by omega)
    have e : s.inputInteger = decInt (s.input s.ilen.toNat) 0 := by
      simp [State.inputInteger, kMax, h6]
    rcases decInt_cases (s.input s.ilen.toNat) 0 with ⟨ho, hd⟩ | ⟨ms, hms, hd⟩ | ⟨l, b, r, hs, he, hl, hb, hd⟩
    · rw [hlen] at ho hd
      exact .inr (.inl ⟨by omega, ho, e.trans hd⟩)
    · have : s.ilen.toNat = 2 * ms.length := by rw [← length_flatMap_pack2, ← hms, hlen]
      exact .inr (.inr (.inl ⟨ms, by omega, this, hms, e.trans hd⟩))
    · rw [hlen] at he
      exact .inr (.inr (.inr ⟨l, b, r, by omega, he, hs, hl, hb, by rw [e, hd, Nat.zero_add]⟩))

/-- PFRM's operand outside the lengths the parser takes (R110). -/
theorem State.inputFrame_short (s : State) (h : s.ilen.toNat < 8) :
    s.inputFrame = .error (raised .frameTooShort s.ilen.toNat 0) := by
  simp [State.inputFrame, minLen, h]

theorem State.inputFrame_long (s : State) (h : 14 < s.ilen.toNat) :
    s.inputFrame = .error (raised .tooLong s.ilen.toNat 0) := by
  simp [State.inputFrame, minLen, lMax, kMax, h, show ¬ s.ilen.toNat < 8 by omega]

/-- PFRM's operand within them is the parser's answer on the buffer, whose length is ILEN (R110). -/
theorem State.inputFrame_parse (s : State) (h8 : 8 ≤ s.ilen.toNat) (h14 : s.ilen.toNat ≤ 14) :
    s.inputFrame = parse (s.input s.ilen.toNat) ∧ (s.input s.ilen.toNat).length = s.ilen.toNat := by
  refine ⟨?_, s.length_input h14⟩
  simp [State.inputFrame, minLen, lMax, kMax, show ¬ s.ilen.toNat < 8 by omega, show ¬ 14 < s.ilen.toNat by omega]

/-- All that a step can do: nothing, or the host's next action (R50, R130). -/
theorem step_cases (s : State) :
    (s.pending = [] ∧ step s = .next s) ∨
    (∃ rest, s.pending = .reset :: rest ∧ step s = .next (s.take rest).assertReset) ∨
    (∃ n rest, s.pending = .read n :: rest ∧ step s = .next ((s.takeRead rest).hostRead n)) ∨
    (∃ cw i rest, s.pending = .command cw :: rest ∧ decode cw = .ok i ∧ step s = exec i (s.take rest)) ∨
    (∃ cw e rest, s.pending = .command cw :: rest ∧ decode cw = .error e ∧
      step s = .next ((s.take rest).illegalCommand cw)) := by
  match h : s.pending with
  | [] => exact .inl ⟨rfl, by simp [step, h]⟩
  | .reset :: rest => exact .inr (.inl ⟨rest, rfl, by simp [step, h]⟩)
  | .read n :: rest => exact .inr (.inr (.inl ⟨n, rest, rfl, by simp [step, h]⟩))
  | .command cw :: rest =>
    cases hd : decode cw with
    | ok i => exact .inr (.inr (.inr (.inl ⟨cw, i, rest, rfl, hd, by simp [step, h, hd]⟩)))
    | error e => exact .inr (.inr (.inr (.inr ⟨cw, e, rest, rfl, hd, by simp [step, h, hd]⟩)))

end Sys2Proof.Machine
end

