-- ==== Sys2Proof/Laws/Claims.lean ====
section
/-! SUPPORT. The spec's tables and formulas as the statements write them, and the machine's own functions: one lemma
for each that says they agree. -/

namespace Sys2Proof.Claims

open Sys2Proof.Machine

theorem cipher_eq_sbox (n : Nibble) : cipher n = sbox n := by
  revert n; decide

theorem legal_iff {b : Byte} : legal b ↔ ∃ n, b = sbox n := by
  constructor
  · intro h
    have all : ∀ b : Byte, b ∈ alphabet → ∃ n, b = sbox n := by decide
    exact all b h
  · rintro ⟨n, rfl⟩
    have all : ∀ n, sbox n ∈ alphabet := by decide
    exact all n

theorem not_legal_iff {b : Byte} : ¬ legal b ↔ inv b = none := by
  rw [legal_iff, inv_eq_none_iff]; exact not_exists

theorem pair_eq_pack2 (m : Byte) : pair m = pack2 m := by
  revert m; decide

theorem pair_eq : pair = pack2 := funext pair_eq_pack2

theorem littleEndian_eq_joinLE (ms : List Byte) : littleEndian ms = joinLE ms := by
  induction ms with
  | nil => rfl
  | cons m ms ih => rw [littleEndian, joinLE_cons, ih]

theorem declaredLength_eq_plen (r : Byte) : declaredLength r = plen r := by
  revert r; decide

theorem commandFrame_eq_buildCmd (reg pl : Byte) : commandFrame reg pl = buildCmd reg pl := by
  simp [commandFrame, buildCmd_eq, pair_eq, cmdHeadBytes]

theorem overwrite_eq_writeBytes (buf : Vector Byte 8) (out : List Byte) : overwrite buf out = writeBytes buf 0 out := by
  ext i hi
  simp [overwrite, writeBytes_getElem]

theorem serialised_eq (s : State) (out : List Byte) : serialised s out = (s.emit out).complete := by
  simp [serialised, completed, State.emit, State.complete, overwrite_eq_writeBytes]

theorem shifted_or (a b : Byte) : ((a.setWidth 16 <<< 8) ||| b.setWidth 16 : BitVec 16) = a ++ b := by
  apply BitVec.eq_of_toNat_eq
  have h := Nat.two_pow_add_eq_or_of_lt (i := 8) (b := b.toNat) (by simpa using b.isLt) a.toNat
  have ha : a.toNat < 256 := a.isLt
  have hb : b.toNat < 256 := b.isLt
  simp only [BitVec.toNat_or, BitVec.toNat_shiftLeft, BitVec.toNat_setWidth, BitVec.toNat_append, Nat.shiftLeft_eq]
  rw [Nat.mod_eq_of_lt (a := a.toNat) (by omega), Nat.mod_eq_of_lt (a := b.toNat) (by omega),
    Nat.mod_eq_of_lt (by omega)]

theorem afterRaise_eq (s : State) (r : Raised) : afterRaise s (faultCode r.kind) r.idx r.byte = s.raise r := by
  simp [afterRaise, State.raise, shifted_or]

theorem flags_eq_frameFlags (reg : Byte) (k : Nat) (t0 t1 : Byte) :
    flags reg k t0 t1 = frameFlags [t0, t1] reg k := by
  have ht : tvalid [t0, t1] = decide (t0 = 0x14 ∧ t1 = 0x13) := by
    simp [tvalid, tailOk, Bool.decide_and]; rfl
  have hl : lenok reg k = decide (declaredLength reg = some k) := by
    rw [declaredLength_eq_plen, lenok, beq_eq_decide]
  have hc : rcls reg = BitVec.ofNat 2 (if reg.toNat ≤ 48 then 0 else if reg.toNat ≤ 63 then 1 else 2) := by
    clear ht hl; revert reg; decide
  have all : ∀ (c : BitVec 2) (p q : Bool),
      (c ++ BitVec.ofBool p ++ BitVec.ofBool q : BitVec 4) =
        BitVec.ofNat 4 ((if q = true then 1 else 0) + (if p = true then 2 else 0) + 4 * c.toNat) := by decide
  have hb : (if reg.toNat ≤ 48 then 0 else if reg.toNat ≤ 63 then 1 else 2) < 4 := by split <;> [omega; split <;> omega]
  rw [frameFlags, ht, hl, hc, all]
  simp only [flags, decide_eq_true_eq, BitVec.toNat_ofNat]
  rw [Nat.mod_eq_of_lt hb]

theorem buffered_eq_input (s : State) : buffered s = s.input s.ilen.toNat := rfl

theorem taken_eq_take (s : State) (rest : List HostAction) : taken s rest = s.take rest := rfl

end Sys2Proof.Claims
end

