-- ==== Sys2Proof/Laws/Decode.lean ====
section
/-! SUPPORT. What the decoder can do: the fields of a word as numbers, every way in which a word decodes, and what it
is for a word to match an opcode row. -/

namespace Sys2Proof

theorem toNat_append {m n : Nat} (x : BitVec m) (y : BitVec n) : (x ++ y).toNat = x.toNat * 2 ^ n + y.toNat := by
  rw [BitVec.toNat_append, Nat.shiftLeft_eq, Nat.mul_comm, ← Nat.two_pow_add_eq_or_of_lt y.isLt]

theorem toNat_field {w : Nat} (x : BitVec w) (a l : Nat) : (x.extractLsb' a l).toNat = x.toNat / 2 ^ a % 2 ^ l := by
  simp [BitVec.extractLsb'_toNat, Nat.shiftRight_eq_div_pow]

theorem whenZero_ok {k : Nat} {zero : BitVec k} {op : Nibble} {i j : Instr} (h : whenZero zero op i = .ok j) :
    zero.toNat = 0 ∧ i = j := by
  unfold whenZero at h
  split at h
  · next h0 => exact ⟨by simp [h0], by simpa using h⟩
  · cases h

theorem whenZero_error {k : Nat} {zero : BitVec k} {op : Nibble} {i : Instr} :
    (∃ e, whenZero zero op i = .error e) ↔ zero.toNat ≠ 0 := by
  rw [ne_eq, ← BitVec.toNat_zero (w := k), BitVec.toNat_inj]
  unfold whenZero
  split <;> simp_all

/-- Every way in which a word decodes: its opcode, its operand fields and its zero bits (R61, R63). -/
theorem decode_ok_cases {cw : Word} {i : Instr} (h : decode cw = .ok i) :
    (i = .encn (cw.extractLsb' 0 4) ∧ (opField cw).toNat = 1 ∧ (cw.extractLsb' 4 24).toNat = 0) ∨
    (i = .decb (cw.extractLsb' 0 8) ∧ (opField cw).toNat = 2 ∧ (cw.extractLsb' 8 20).toNat = 0) ∨
    (i = .enci (cw.extractLsb' 0 24) ∧ (opField cw).toNat = 3 ∧ (cw.extractLsb' 24 4).toNat = 0) ∨
    (i = .deci ∧ (opField cw).toNat = 4 ∧ (cw.extractLsb' 0 28).toNat = 0) ∨
    (i = .bcmd (cw.extractLsb' 0 8) (cw.extractLsb' 8 8) ∧ (opField cw).toNat = 5 ∧
      (cw.extractLsb' 16 12).toNat = 0) ∨
    (i = .qcmd (cw.extractLsb' 0 8) ∧ (opField cw).toNat = 6 ∧ (cw.extractLsb' 8 20).toNat = 0) ∨
    (i = .pfrm ∧ (opField cw).toNat = 7 ∧ (cw.extractLsb' 0 28).toNat = 0) ∨
    (i = .push (cw.extractLsb' 0 8) ∧ (opField cw).toNat = 8 ∧ (cw.extractLsb' 8 20).toNat = 0) ∨
    (i = .clri ∧ (opField cw).toNat = 9 ∧ (cw.extractLsb' 0 28).toNat = 0) ∨
    (i = .clrf ∧ (opField cw).toNat = 10 ∧ (cw.extractLsb' 0 28).toNat = 0) := by
  unfold decode at h
  split at h <;> first
    | cases h
    | (obtain ⟨hz, rfl⟩ := whenZero_ok h; simp_all)

/-- The word under a mask whose k low bits are 0 and whose other bits are 1. -/
theorem toNat_and_mask (cw : Word) {k : Nat} (hk : k ≤ 28) :
    (cw &&& BitVec.ofNat 32 (2 ^ 32 - 2 ^ k)).toNat = cw.toNat / 2 ^ k * 2 ^ k := by
  have hc := cw.isLt
  have mask : (2 ^ 32 - 2 ^ k) % 2 ^ 32 = 2 ^ k * (2 ^ (32 - k) - 1) := by
    rw [Nat.mul_sub, ← Nat.pow_add, show k + (32 - k) = 32 by omega, Nat.mod_eq_of_lt, Nat.mul_one]
    exact Nat.sub_lt (by norm_num) (by positivity)
  rw [BitVec.toNat_and, BitVec.toNat_ofNat]
  apply Nat.eq_of_testBit_eq
  intro j
  rw [mask, Nat.testBit_and, Nat.testBit_two_pow_mul, Nat.testBit_two_pow_sub_one, Nat.mul_comm (cw.toNat / 2 ^ k),
    Nat.testBit_two_pow_mul, Nat.testBit_div_two_pow]
  by_cases hj : k ≤ j
  · rw [show j - k + k = j by omega]
    by_cases h32 : j < 32
    · simp [hj, show j - k < 32 - k by omega]
    · rw [Nat.testBit_lt_two_pow (lt_of_lt_of_le hc (Nat.pow_le_pow_right (by norm_num) (by omega)))]
      simp
  · simp [hj]

/-- A word matches a row when it agrees with the row's match above the row's operand bits (R63). -/
theorem selects_iff (cw value : Word) {k : Nat} (hk : k ≤ 28) (m : Word) (name : String)
    (hm : m = BitVec.ofNat 32 (2 ^ 32 - 2 ^ k)) :
    (OpRow.selects ⟨name, value, m⟩ cw = true) ↔ cw.toNat / 2 ^ k * 2 ^ k = value.toNat := by
  subst hm
  simp only [OpRow.selects, decide_eq_true_eq, ← BitVec.toNat_inj, toNat_and_mask cw hk]

end Sys2Proof
end

