-- ==== Sys2Proof/Laws/Exec.lean ====
section
/-! SUPPORT. All that the operations that can fault can do, each outcome with its next state, and how wire bytes are
packed into a register. -/

namespace Sys2Proof.Machine

theorem next_inj {a b : State} (h : (Host.Outcome.next a : Host.Outcome State Fault Refusal) = .next b) : a = b := by
  cases h; rfl

/-- A raise always leaves a fault code in STATUS (R150). -/
theorem State.raise_status_ne_zero (s : State) (r : Raised) : (s.raise r).status ≠ 0 := by
  rw [State.raise_status]; cases r.kind <;> decide

/-- Every operation answers a next state. -/
theorem exec_answers_next (i : Instr) (s : State) : ∃ t, exec i s = .next t := by
  have c : ∀ r, ∃ t, s.commit r = .next t := by intro r; cases r <;> exact ⟨_, rfl⟩
  cases i with
  | qcmd r => cases hp : plen r with
    | none => exact ⟨_, exec_qcmd_none s hp⟩
    | some k => exact ⟨_, exec_qcmd_some s hp⟩
  | decb b => exact c _
  | deci => exact c _
  | pfrm => exact c _
  | _ => exact ⟨_, rfl⟩

/-- All that DECB can do (R84). -/
theorem exec_decb_cases (b : Byte) (s : State) :
    (∃ n, b = sbox n ∧ exec (.decb b) s = .next (s.showNibble n).complete) ∨
    (inv b = none ∧ exec (.decb b) s = .next (s.raise (raised .invalidCipherByte 0 b))) := by
  rcases dec_cases b 0 with ⟨n, hb, hd⟩ | ⟨hn, hd⟩
  · exact .inl ⟨n, hb, by rw [exec_decb, hd]; rfl⟩
  · exact .inr ⟨hn, by rw [exec_decb, hd]; rfl⟩

/-- All that DECI can do (R95). -/
theorem exec_deci_cases (s : State) :
    (6 < s.ilen.toNat ∧ exec .deci s = .next (s.raise (raised .tooLong s.ilen.toNat 0))) ∨
    (s.ilen.toNat ≤ 6 ∧ s.ilen.toNat % 2 = 1 ∧
      exec .deci s = .next (s.raise (raised .oddLengthInput s.ilen.toNat 0))) ∨
    (∃ ms, ms.length ≤ 3 ∧ s.ilen.toNat = 2 * ms.length ∧ s.input s.ilen.toNat = ms.flatMap pack2 ∧
      exec .deci s = .next (s.showInteger (joinLE ms) ms.length).complete) ∨
    (∃ l b r, s.ilen.toNat ≤ 6 ∧ s.ilen.toNat % 2 = 0 ∧ s.input s.ilen.toNat = l ++ b :: r ∧
      (∀ c ∈ l, ∃ n, c = sbox n) ∧ inv b = none ∧
      exec .deci s = .next (s.raise (raised .invalidCipherByte l.length b))) := by
  rcases s.inputInteger_cases with ⟨h, e⟩ | ⟨h, ho, e⟩ | ⟨ms, h3, hl, hs, e⟩ | ⟨l, b, r, h, he, hs, hl, hb, e⟩
  · exact .inl ⟨h, by rw [exec_deci, e]; rfl⟩
  · exact .inr (.inl ⟨h, ho, by rw [exec_deci, e]; rfl⟩)
  · exact .inr (.inr (.inl ⟨ms, h3, hl, hs, by rw [exec_deci, e]; rfl⟩))
  · exact .inr (.inr (.inr ⟨l, b, r, h, he, hs, hl, hb, by rw [exec_deci, e]; rfl⟩))

/-- All that PFRM can do (R110). -/
theorem exec_pfrm_cases (s : State) :
    (s.ilen.toNat < 8 ∧ exec .pfrm s = .next (s.raise (raised .frameTooShort s.ilen.toNat 0))) ∨
    (14 < s.ilen.toNat ∧ exec .pfrm s = .next (s.raise (raised .tooLong s.ilen.toNat 0))) ∨
    (8 ≤ s.ilen.toNat ∧ s.ilen.toNat ≤ 14 ∧ (s.input s.ilen.toNat).length = s.ilen.toNat ∧
      ((∃ head ms tail reg, head.length = 4 ∧ tail.length = 2 ∧ ms.length ≤ 3 ∧ s.ilen.toNat = 8 + 2 * ms.length ∧
          s.input s.ilen.toNat = head ++ pack2 reg ++ ms.flatMap pack2 ++ tail ∧
          exec .pfrm s = .next (s.showFrame ⟨head, reg.toNat, joinLE ms, ms.length, tail⟩).complete) ∨
        (∃ l b r, slice (s.input s.ilen.toNat) 4 6 = l ++ b :: r ∧ (∀ c ∈ l, ∃ n, c = sbox n) ∧ inv b = none ∧
          exec .pfrm s = .next (s.raise (raised .invalidCipherByte (4 + l.length) b))) ∨
        (∃ reg, slice (s.input s.ilen.toNat) 4 6 = pack2 reg ∧ s.ilen.toNat % 2 = 1 ∧
          exec .pfrm s = .next (s.raise (raised .oddLengthInput (s.ilen.toNat - 8) 0))) ∨
        (∃ reg l b r, slice (s.input s.ilen.toNat) 4 6 = pack2 reg ∧ s.ilen.toNat % 2 = 0 ∧
          slice (s.input s.ilen.toNat) 6 (s.ilen.toNat - 2) = l ++ b :: r ∧ (∀ c ∈ l, ∃ n, c = sbox n) ∧
          inv b = none ∧ exec .pfrm s = .next (s.raise (raised .invalidCipherByte (6 + l.length) b))))) := by
  by_cases h8 : s.ilen.toNat < 8
  · exact .inl ⟨h8, by rw [exec_pfrm, s.inputFrame_short h8]; rfl⟩
  by_cases h14 : 14 < s.ilen.toNat
  · exact .inr (.inl ⟨h14, by rw [exec_pfrm, s.inputFrame_long h14]; rfl⟩)
  obtain ⟨e, hlen⟩ := s.inputFrame_parse (by omega) (by omega)
  refine .inr (.inr ⟨by omega, by omega, hlen, ?_⟩)
  have run : ∀ r, parse (s.input s.ilen.toNat) = r → exec .pfrm s = s.commit (r.map s.showFrame) := by
    rintro r rfl; rw [exec_pfrm, e]
  rcases parse_cases (s.input s.ilen.toNat) (by omega) (by omega) with
    ⟨head, ms, tail, reg, hh, ht, hk, hraw, hp⟩ | ⟨l, b, r, hs, hl, hb, hp⟩ | ⟨reg, hs, ho, hp⟩ |
    ⟨reg, l, b, r, hs, he, hv, hl, hb, hp⟩
  · refine .inl ⟨head, ms, tail, reg, hh, ht, hk, ?_, hraw, run _ hp⟩
    rw [← hlen, hraw]; simp [-List.length_flatMap, hh, ht]; omega
  · exact .inr (.inl ⟨l, b, r, hs, hl, hb, run _ hp⟩)
  · exact .inr (.inr (.inl ⟨reg, hs, hlen ▸ ho, by rw [run _ hp, hlen]; rfl⟩))
  · exact .inr (.inr (.inr ⟨reg, l, b, r, hs, hlen ▸ he, (by rw [hlen] at hv; exact hv), hl, hb, run _ hp⟩))

/-- Two splits of one sequence at its first illegal byte are the same split. -/
theorem first_illegal_unique {l l' r r' : List Byte} {b b' : Byte} (h : l ++ b :: r = l' ++ b' :: r')
    (hl : ∀ c ∈ l, ∃ n, c = sbox n) (hl' : ∀ c ∈ l', ∃ n, c = sbox n) (hb : inv b = none) (hb' : inv b' = none) :
    l = l' ∧ b = b' := by
  induction l generalizing l' with
  | nil => cases l' with
    | nil => exact ⟨rfl, by simpa using (List.cons.inj h).1⟩
    | cons c l' =>
      obtain ⟨n, hn⟩ := hl' c (by simp)
      rw [(List.cons.inj h).1, hn, inv_sbox] at hb; cases hb
  | cons c l ih => cases l' with
    | nil =>
      obtain ⟨n, hn⟩ := hl c (by simp)
      rw [← (List.cons.inj h).1, hn, inv_sbox] at hb'; cases hb'
    | cons c' l' =>
      have := ih (List.cons.inj h).2 (fun c hc => hl c (by simp [hc])) (fun c hc => hl' c (by simp [hc]))
      exact ⟨by rw [(List.cons.inj h).1, this.1], this.2⟩

/-- A sequence of pairs holds no illegal byte. -/
theorem flatMap_pack2_legal {ms : List Byte} {c : Byte} (hc : c ∈ ms.flatMap pack2) : ∃ n, c = sbox n := by
  obtain ⟨m, _, hm⟩ := List.mem_flatMap.mp hc
  simp only [pack2, List.mem_cons, List.not_mem_nil, or_false] at hm
  rcases hm with h | h <;> exact ⟨_, h⟩

theorem flatMap_pack2_injective {l m : List Byte} (h : l.flatMap pack2 = m.flatMap pack2) : l = m := by
  have e := unpackPairs_flatMap l 0
  rw [h, unpackPairs_flatMap] at e
  injection e with e
  exact e.symm

theorem shift_or_byte (a : Nat) (b : Byte) : (a <<< 8) ||| b.toNat = a * 256 + b.toNat := by
  rw [Nat.shiftLeft_eq, Nat.mul_comm, ← Nat.two_pow_add_eq_or_of_lt b.isLt]

theorem joinBE_two (b0 b1 : Byte) : joinBE [b0, b1] = b0.toNat * 2 ^ 8 + b1.toNat := by
  simp only [joinBE, List.foldl]
  rw [shift_or_byte, shift_or_byte]; omega

theorem joinBE_four (b0 b1 b2 b3 : Byte) :
    joinBE [b0, b1, b2, b3] = b0.toNat * 2 ^ 24 + b1.toNat * 2 ^ 16 + b2.toNat * 2 ^ 8 + b3.toNat := by
  simp only [joinBE, List.foldl]
  rw [shift_or_byte, shift_or_byte, shift_or_byte, shift_or_byte]; omega

/-- The three fields of RFLG read back (R24). -/
theorem frameFlags_fields (tail : List Byte) (reg : Byte) (k : Nat) :
    (frameFlags tail reg k)[0] = tvalid tail ∧ (frameFlags tail reg k)[1] = lenok reg k ∧
    (frameFlags tail reg k).extractLsb' 2 2 = rcls reg := by
  have all : ∀ (c : BitVec 2) (p q : Bool), (c ++ BitVec.ofBool p ++ BitVec.ofBool q : BitVec 4)[0] = q ∧
      (c ++ BitVec.ofBool p ++ BitVec.ofBool q : BitVec 4)[1] = p ∧
      (c ++ BitVec.ofBool p ++ BitVec.ofBool q : BitVec 4).extractLsb' 2 2 = c := by decide
  exact all _ _ _

end Sys2Proof.Machine
end

