-- ==== Sys2Proof/Laws/PerInstr.lean ====
section
/-! SUPPORT. Per operation: the family RowOfWord (LAWS.json). -/

namespace Sys2Proof.Laws.RowOfWord

/-- The word of an operation matches the opcode row that bears its mnemonic (R61, R63). -/
def Statement (i : Instr) : Prop := ∃ r ∈ opRows, r.mnemonic = i.mnemonic ∧ r.selects (encode i) = true

/-- A word whose bits from k up are those of the row's match matches the row. -/
theorem of_row {i : Instr} (r : OpRow) (k : Nat) (hk : k ≤ 28) (hr : r ∈ opRows) (hn : r.mnemonic = i.mnemonic)
    (hm : r.mask = BitVec.ofNat 32 (2 ^ 32 - 2 ^ k)) (h : (encode i).toNat / 2 ^ k * 2 ^ k = r.value.toNat) :
    Statement i :=
  ⟨r, hr, hn, (selects_iff _ r.value hk r.mask r.mnemonic hm).mpr h⟩

theorem encn (n : Nibble) : Statement (.encn n) :=
  of_row ⟨"ENCN", 0x10000000, 0xFFFFFFF0⟩ 4 (by omega) (by decide) rfl (by decide)
    (by simp only [encode, formN, toNat_append]; have := n.isLt; simp; omega)

theorem decb (b : Byte) : Statement (.decb b) :=
  of_row ⟨"DECB", 0x20000000, 0xFFFFFF00⟩ 8 (by omega) (by decide) rfl (by decide)
    (by simp only [encode, formB, toNat_append]; have := b.isLt; simp; omega)

theorem enci (v : Magnitude) : Statement (.enci v) :=
  of_row ⟨"ENCI", 0x30000000, 0xFF000000⟩ 24 (by omega) (by decide) rfl (by decide)
    (by simp only [encode, formI, toNat_append]; have := v.isLt; simp; omega)

theorem deci : Statement .deci := ⟨⟨"DECI", 0x40000000, 0xFFFFFFFF⟩, by decide, rfl, by decide⟩

theorem bcmd (reg plen : Byte) : Statement (.bcmd reg plen) :=
  of_row ⟨"BCMD", 0x50000000, 0xFFFF0000⟩ 16 (by omega) (by decide) rfl (by decide)
    (by simp only [encode, formR, toNat_append]; have := reg.isLt; have := plen.isLt; simp; omega)

theorem qcmd (reg : Byte) : Statement (.qcmd reg) :=
  of_row ⟨"QCMD", 0x60000000, 0xFFFFFF00⟩ 8 (by omega) (by decide) rfl (by decide)
    (by simp only [encode, formB, toNat_append]; have := reg.isLt; simp; omega)

theorem pfrm : Statement .pfrm := ⟨⟨"PFRM", 0x70000000, 0xFFFFFFFF⟩, by decide, rfl, by decide⟩

theorem push (b : Byte) : Statement (.push b) :=
  of_row ⟨"PUSH", 0x80000000, 0xFFFFFF00⟩ 8 (by omega) (by decide) rfl (by decide)
    (by simp only [encode, formB, toNat_append]; have := b.isLt; simp; omega)

theorem clri : Statement .clri := ⟨⟨"CLRI", 0x90000000, 0xFFFFFFFF⟩, by decide, rfl, by decide⟩

theorem clrf : Statement .clrf := ⟨⟨"CLRF", 0xA0000000, 0xFFFFFFFF⟩, by decide, rfl, by decide⟩

end Sys2Proof.Laws.RowOfWord
end

