-- ==== Sys2Proof/Tests/Slice0.lean ====
section
/-! SUPPORT. Tests of the model against the spec's own examples and tables (95_test_vectors.md), the refusals of
WellFormed, and one witness for the hypotheses of each statement that has any. -/

namespace Sys2Proof.Tests

open Sys2Proof.Machine Sys2Proof.Claims

/-- A state whose input buffer holds the bytes, everything else as after reset. -/
def holding (bytes : List Byte) : State :=
  { State.reset with
    ibuf := Vector.ofFn (fun i => bytes.getD i.val 0xEE), ilen := BitVec.ofNat 8 bytes.length }

/-- The state an operation answers. -/
def after (i : Instr) (s : State) : State :=
  match exec i s with
  | .next t => t
  | _ => s

theorem exec_after (i : Instr) (s : State) : exec i s = .next (after i s) := by
  obtain ⟨t, ht⟩ := exec_answers_next i s
  simp [after, ht]

/-- The state after one step. -/
def stepped (s : State) : State :=
  match step s with
  | .next t => t
  | _ => s

/-- A state whose host has one action to come. -/
def about (a : HostAction) : State := { State.reset with pending := [a] }

/-- The source's fixture frame (S6). -/
def fixture : List Byte := [0x32, 0x4B, 0x5D, 0x35, 0x29, 0x5D, 0x2C, 0x20, 0x14, 0x13]

/-! Decoding: words written out bit by bit from R61 and R63, one per operation. -/

theorem test_decode_encn : decode 0b0001_000000000000000000000000_1101#32 = .ok (.encn 13) := by decide
theorem test_decode_decb : decode 0b0010_00000000000000000000_01011101#32 = .ok (.decb 0x5D) := by decide
theorem test_decode_enci : decode 0b0011_0000_000000000000101110111000#32 = .ok (.enci 3000) := by decide
theorem test_decode_deci : decode 0b0100_0000000000000000000000000000#32 = .ok .deci := by decide
theorem test_decode_bcmd : decode 0b0101_000000000000_00000001_00001101#32 = .ok (.bcmd 13 1) := by decide
theorem test_decode_qcmd : decode 0b0110_00000000000000000000_00111111#32 = .ok (.qcmd 63) := by decide
theorem test_decode_pfrm : decode 0b0111_0000000000000000000000000000#32 = .ok .pfrm := by decide
theorem test_decode_push : decode 0b1000_00000000000000000000_00110010#32 = .ok (.push 0x32) := by decide
theorem test_decode_clri : decode 0b1001_0000000000000000000000000000#32 = .ok .clri := by decide
theorem test_decode_clrf : decode 0b1010_0000000000000000000000000000#32 = .ok .clrf := by decide

/-- Table V8: illegal words, one or more of each row. -/
theorem test_illegal_words :
    ([0x00000000, 0x10000010, 0x20000100, 0x04000000, 0x40000001, 0xB0000000, 0x5001010D, 0x03100000, 0x31000000,
      0x70000001, 0x6000010D, 0x80000132, 0x90000001, 0xA0000100, 0xC0000000, 0xE0000000, 0xFFFFFFFF] : List Word).all
      (fun w => (decodeTableWord 32 w.toNat).isNone) = true := by decide

/-- The table's numbering of bits: an operand word with fewer bits given has zeros above. -/
theorem test_table_word : decodeTableWord 32 0x6000003F = some (.qcmd 63) := by decide

/-- A word placed for the next step runs as the first operation after reset (V5 row 63). -/
theorem test_first_step_after_reset :
    (stepped (State.reset.withFetchWord 32 0x6000003F)).obuf.toList =
      [0x32, 0x4B, 0x28, 0x2F, 0x2A, 0x5F, 0x29, 0x2B] := by decide

/-! WellFormed refuses an operand that does not fit its field, one term per check. -/

theorem test_illFormed_encn : (Asm.encn 16).wellFormed = false := by decide
theorem test_illFormed_decb : (Asm.decb 256).wellFormed = false := by decide
theorem test_illFormed_enci : (Asm.enci 16777216).wellFormed = false := by decide
theorem test_illFormed_bcmd_reg : (Asm.bcmd 256 1).wellFormed = false := by decide
theorem test_illFormed_bcmd_plen : (Asm.bcmd 13 256).wellFormed = false := by decide
theorem test_illFormed_qcmd : (Asm.qcmd 256).wellFormed = false := by decide
theorem test_illFormed_push : (Asm.push 256).wellFormed = false := by decide
theorem test_illFormed_load : (Asm.load [0x32, 256]).wellFormed = false := by decide
theorem test_illFormed_parse : (Asm.parse [256]).wellFormed = false := by decide
theorem test_illFormed_decode : (Asm.decode [256]).wellFormed = false := by decide

/-- R71 on the DECODE of R95's example. -/
theorem test_assemble_decode :
    (Asm.decode [0x5B, 0x21]).assemble = some [0x90000000, 0x8000005B, 0x80000021, 0x40000000] := by decide

/-! One step of each operation. -/

/-- V1, n = 13 (R83's example). -/
theorem test_encn : (after (.encn 13) State.reset).obuf[0] = 0x5D ∧ (after (.encn 13) State.reset).olen = 1 := by decide

/-- V2 row 14. -/
theorem test_decb : (after (.decb 0x5D) State.reset).nib = 13 ∧ (after (.decb 0x5D) State.reset).status = 0 := by decide

/-- V2 row 20 (R84's example). -/
theorem test_decb_illegal :
    (after (.decb 0x14) State.reset).status = 1 ∧ (after (.decb 0x14) State.reset).finfo = 0x0014 ∧
    (after (.decb 0x14) State.reset).flog = 2 := by decide

/-- V3 row 13 (R94's example). -/
theorem test_enci_two_bytes :
    (after (.enci 3000) State.reset).obuf.toList.take 4 = [0x29, 0x5B, 0x5B, 0x21] ∧
    (after (.enci 3000) State.reset).olen = 4 := by decide

/-- V3 row 25. -/
theorem test_enci_three_bytes :
    (after (.enci 0xABCDEF) State.reset).obuf.toList.take 6 = [0x58, 0x5B, 0x5A, 0x5D, 0x5C, 0x5F] := by decide

/-- V4 row 5 (R95's example): the second pair is the high byte. -/
theorem test_deci :
    (after .deci (holding [0x5B, 0x21, 0x29, 0x5B])).rval = 3000 ∧
    (after .deci (holding [0x5B, 0x21, 0x29, 0x5B])).rk = 2 := by decide

/-- V4 row 17: index 3, byte 30. -/
theorem test_deci_illegal :
    (after .deci (holding [0x29, 0x28, 0x2F, 0x30])).status = 1 ∧
    (after .deci (holding [0x29, 0x28, 0x2F, 0x30])).finfo = 0x0330 := by decide

/-- R103's example. -/
theorem test_bcmd :
    (after (.bcmd 13 1) State.reset).obuf.toList = [0x32, 0x4B, 0x28, 0x2F, 0x29, 0x5D, 0x29, 0x28] := by decide

/-- V5, reg = 10: length 3. -/
theorem test_qcmd :
    (after (.qcmd 10) State.reset).obuf.toList = [0x32, 0x4B, 0x28, 0x2F, 0x29, 0x58, 0x29, 0x2A] := by decide

/-- V5's refusals: 64, the upper neighbour of the cell range. -/
theorem test_qcmd_unknown :
    (after (.qcmd 64) State.reset).status = 4 ∧ (after (.qcmd 64) State.reset).finfo = 0x0040 ∧
    (after (.qcmd 64) State.reset).olen = 0 := by decide

/-- V6 row 4: register 56, value 3312, RCLS = 1. -/
theorem test_pfrm_cell :
    let t := after .pfrm (holding [0x32, 0x4B, 0x5D, 0x35, 0x2A, 0x21, 0x5F, 0x29, 0x29, 0x5A, 0x14, 0x13])
    t.rhead = 0x324B5D35 ∧ t.rreg = 56 ∧ t.rval = 0x000CF0 ∧ t.rk = 2 ∧ t.rtail = 0x1413 ∧ t.rflg = 0x7 := by decide

/-- V6 row 28: the register byte is tested before parity. -/
theorem test_pfrm_order :
    let t := after .pfrm (holding [0x32, 0x4B, 0x5D, 0x35, 0xFF, 0x5D, 0x2C, 0x14, 0x13])
    t.status = 1 ∧ t.finfo = 0x04FF ∧ t.flog = 2 := by decide

/-- V7 step 15: the 15th byte is counted and not stored. -/
theorem test_push_beyond :
    let s := holding (List.replicate 14 0x29)
    (after (.push 0xAA) s).ilen = 15 ∧ (after (.push 0xAA) s).ibuf = s.ibuf := by decide

/-- V7, saturation: from 255 a PUSH gives 255. -/
theorem test_push_saturates : (after (.push 0) { State.reset with ilen := 255 }).ilen = 255 := by decide

/-- R121: the bytes of IBUF stay. -/
theorem test_clri : (after .clri (holding fixture)).ilen = 0 ∧ (after .clri (holding fixture)).ibuf[9] = 0x13 := by decide

/-- R122's example. -/
theorem test_clrf : (after .clrf { State.reset with flog := 0x0A }).flog = 0 := by decide

/-- R133 on the frame of V6 row 4: cell-voltage slot 56 − 49 = 7 receives 3312 (P4). -/
theorem test_route_cell :
    (after .pfrm (holding [0x32, 0x4B, 0x5D, 0x35, 0x2A, 0x21, 0x5F, 0x29, 0x29, 0x5A, 0x14, 0x13])).routeChecked =
      some (.cellSlot 7 3312) := by decide

/-- R131's sending sequence with BCMD (R103's example), then its ten reads. -/
theorem test_explicit_query :
    (explicitQueryActions 13 1).take 2 = [.command 0x5000010D, .read 0] ∧
    (explicitQueryActions 13 1).length = 11 ∧
    (stepped { State.reset with pending := explicitQueryActions 13 1 }).obuf.toList =
      [0x32, 0x4B, 0x28, 0x2F, 0x29, 0x5D, 0x29, 0x28] := by decide

/-! Witnesses: each meets all the hypotheses of the statement it names. -/

theorem witness_StepRunsTheDecodedOperation :
    (about (.command 0x1000000D)).pending = .command 0x1000000D :: [] ∧ decode 0x1000000D = .ok (.encn 13) := by decide

/-- Also for LegalWordsAreEncodings. -/
theorem witness_DecodedWordMatchesItsRowOnly :
    decode 0x1000000D = .ok (.encn 13) ∧ ⟨"ENCN", 0x10000000, 0xFFFFFFF0⟩ ∈ opRows := by decide

theorem witness_IllegalWordRaisesIllegalCommand :
    (about (.command 0xB0000000)).pending = .command 0xB0000000 :: [] ∧ illegalWord 0xB0000000 :=
  ⟨rfl, by unfold illegalWord; decide⟩

/-- Each clause of illegalWord at a boundary: opcode 0 and F, the lowest zero bit of each format. -/
theorem witness_illegalWord_clauses :
    illegalWord 0x0FFFFFFF ∧ illegalWord 0xFFFFFFFF ∧ illegalWord 0x10000010 ∧ illegalWord 0x20000100 ∧
    illegalWord 0x31000000 ∧ illegalWord 0x50010000 ∧ illegalWord 0xA0000001 := by
  refine ⟨?_, ?_, ?_, ?_, ?_, ?_, ?_⟩ <;> unfold illegalWord <;> decide

theorem witness_AssembledLinesDecodeToTheirOperations :
    withinFields (.bcmd 255 255) ∧ ¬ withinFields (.bcmd 255 256) ∧ withinFields (.load [0, 255]) ∧
    ¬ withinFields (.parse [256]) := by
  simp [withinFields]

/-- Also for ResetActionClearsTheControlRegisters. -/
theorem witness_FirstDecodesAfterReset :
    ∃ t, (about .reset).pending = .reset :: [] ∧ step (about .reset) = .next t := ⟨_, rfl, rfl⟩

theorem witness_IdleBlockKeepsItsState : State.reset.pending = [] := rfl

/-- The numbers where the clauses meet: 0, 12, 16, 23, 32 and 45 (a register is one clause each). -/
theorem witness_HostReadReturnsTheNumberedRegister :
    ∀ n ∈ ([0, 1, 2, 3, 4, 5, 6, 7, 8, 9, 10, 11, 12, 16, 23, 32, 45] : List RegNum),
      (about (.read n)).pending = .read n :: [] ∧
      ((n = 0 ∨ n = 1 ∨ n = 2 ∨ n = 3 ∨ n = 4 ∨ n = 5 ∨ n = 6 ∨ n = 7 ∨ n = 8 ∨ n = 9 ∨ n = 10 ∨ n = 11 ∨ n = 12) ∨
        (∃ i : Fin 8, n.toNat = 16 + i.val) ∨ ∃ i : Fin 14, n.toNat = 32 + i.val) := by decide

/-- With the value, at the ends of the two buffers and at CMDHEAD. -/
theorem witness_HostReadReturnsTheNumberedRegister_value :
    (∃ v : Word, (about (.read 12)).pending = .read 12 :: [] ∧ v = 0x324B282F) ∧
    (∃ v : Word, (about (.read 23)).pending = .read 23 :: [] ∧
      ∃ i : Fin 8, (23 : RegNum).toNat = 16 + i.val ∧ v = ((about (.read 23)).obuf[i]).setWidth 32) ∧
    ∃ v : Word, (about (.read 32)).pending = .read 32 :: [] ∧
      ∃ i : Fin 14, (32 : RegNum).toNat = 32 + i.val ∧ v = ((about (.read 32)).ibuf[i]).setWidth 32 :=
  ⟨⟨_, rfl, rfl⟩, ⟨_, rfl, 7, rfl, rfl⟩, _, rfl, 0, rfl, rfl⟩

theorem witness_ReadsAreIdempotentAndChangeNothing :
    ({ State.reset with pending := [.read 13, .read 13] } : State).pending = .read 13 :: .read 13 :: [] := rfl

theorem witness_DecbOfAnIllegalByteFaults : ¬ legal 0x14 := by unfold legal; decide

theorem witness_EncnAndDecbUndoEachOther :
    (∃ t, exec (.encn 13) State.reset = .next t) ∧ ∃ t, exec (.decb 0x5D) State.reset = .next t ∧ t.status = 0 :=
  ⟨⟨_, exec_after _ _⟩, _, exec_after _ _, by decide⟩

theorem witness_EnciLosesNoOperand :
    ∃ t x, exec (.enci 256) State.reset = .next t ∧ exec (.enci 256) (holding fixture) = .next x ∧ t.olen = x.olen ∧
      t.obuf.toList.take t.olen.toNat = x.obuf.toList.take x.olen.toNat :=
  ⟨_, _, exec_after _ _, exec_after _ _, by decide, by decide⟩

/-- The least and the greatest number of pairs. -/
theorem witness_DeciReadsTheFirstPairAsLeastSignificant :
    (∃ (s : State) (ms : List Byte), ms = [] ∧ ms.length ≤ 3 ∧ s.ilen.toNat = 2 * ms.length ∧
      buffered s = ms.flatMap pair) ∧
    ∃ (s : State) (ms : List Byte), ms.length ≤ 3 ∧ s.ilen.toNat = 2 * ms.length ∧ buffered s = ms.flatMap pair :=
  ⟨⟨holding [], [], by decide⟩, holding [0x58, 0x5B, 0x5A, 0x5D, 0x5C, 0x5F], [0xAB, 0xCD, 0xEF], by decide⟩

theorem witness_DeciOfMoreThanSixBytesIsTooLong : 6 < (holding (List.replicate 7 0x29)).ilen.toNat := by decide

theorem witness_DeciOfAnOddNumberOfBytesFaults :
    (holding [0x14]).ilen.toNat ≤ 6 ∧ (holding [0x14]).ilen.toNat % 2 = 1 := by decide

theorem witness_DeciNamesTheFirstIllegalByte :
    let s := holding [0x29, 0x28, 0x2F, 0x30]
    s.ilen.toNat ≤ 6 ∧ s.ilen.toNat % 2 = 0 ∧ (3 : Fin 14).val < s.ilen.toNat ∧ ¬ legal s.ibuf[(3 : Fin 14)] ∧
      ∀ j : Fin 14, j.val < (3 : Fin 14).val → legal s.ibuf[j] := by
  unfold legal; decide

theorem witness_DeciOfEnciIsTheByteReversedOperand :
    ∃ (u t : State), exec (.enci 256) State.reset = .next t ∧ u.ilen.toNat = t.olen.toNat ∧
      buffered u = t.obuf.toList.take t.olen.toNat :=
  ⟨holding [0x29, 0x28, 0x29, 0x29], _, exec_after _ _, by decide, by decide⟩

theorem witness_QcmdBuildsTheDeclaredQuery :
    declaredLength 8 = some 2 ∧ declaredLength 10 = some 3 ∧ declaredLength 13 = some 1 ∧ declaredLength 49 = some 2 ∧
    declaredLength 63 = some 2 := by decide

theorem witness_QcmdOfAnUnknownIdFaults : declaredLength 48 = none ∧ declaredLength 64 = none := by decide

/-- The shortest and the longest frame (V6 rows 9 and 17). -/
theorem witness_PfrmDeliversTheFrame :
    (let s := holding [0x32, 0x4B, 0x5D, 0x35, 0x29, 0x5D, 0x14, 0x13];
     ([] : List Byte).length ≤ 3 ∧ s.ilen.toNat = 8 + 2 * 0 ∧
     buffered s = [0x32, 0x4B, 0x5D, 0x35] ++ pair 13 ++ ([] : List Byte).flatMap pair ++ [0x14, 0x13]) ∧
    let s := holding [0, 0, 0, 0, 0x29, 0x5F, 0x5C, 0x5F, 0x5A, 0x5D, 0x58, 0x5B, 0x14, 0x13]
    ([0xEF, 0xCD, 0xAB] : List Byte).length ≤ 3 ∧ s.ilen.toNat = 8 + 2 * 3 ∧
      buffered s = [0, 0, 0, 0] ++ pair 15 ++ ([0xEF, 0xCD, 0xAB] : List Byte).flatMap pair ++ [0x14, 0x13] := by decide

theorem witness_PfrmOfAShortBufferFaults : (holding (fixture.take 7)).ilen.toNat < 8 := by decide

theorem witness_PfrmOfALongBufferFaults : 14 < (holding (List.replicate 15 0x29)).ilen.toNat := by decide

/-- V6 row 24 for the first clause, row 23 for the second. -/
theorem witness_PfrmTestsTheRegisterBytesBeforeParity :
    (let s := holding [0x32, 0x4B, 0x5D, 0x35, 0x30, 0x31, 0x2C, 0x20, 0x14, 0x13];
     8 ≤ s.ilen.toNat ∧ s.ilen.toNat ≤ 14 ∧ ¬ legal s.ibuf[4]) ∧
    let s := holding [0x32, 0x4B, 0x5D, 0x35, 0x29, 0x00, 0x2C, 0x20, 0x14, 0x13]
    8 ≤ s.ilen.toNat ∧ s.ilen.toNat ≤ 14 ∧ legal s.ibuf[4] ∧ ¬ legal s.ibuf[5] := by
  unfold legal; decide

/-- V6 row 29. -/
theorem witness_PfrmOfAnOddBufferFaults :
    let s := holding [0x32, 0x4B, 0x5D, 0x35, 0x29, 0x5D, 0x77, 0x14, 0x13]
    8 ≤ s.ilen.toNat ∧ s.ilen.toNat ≤ 14 ∧ s.ilen.toNat % 2 = 1 ∧ legal s.ibuf[4] ∧ legal s.ibuf[5] := by
  unfold legal; decide

/-- V6 row 33. -/
theorem witness_PfrmNamesTheFirstIllegalValueByte :
    let s := holding [0x32, 0x4B, 0x5D, 0x35, 0x29, 0x21, 0x5B, 0x27, 0x30, 0x5B, 0x14, 0x13]
    8 ≤ s.ilen.toNat ∧ s.ilen.toNat ≤ 14 ∧ s.ilen.toNat % 2 = 0 ∧ 6 ≤ (7 : Fin 14).val ∧
      (7 : Fin 14).val + 2 < s.ilen.toNat ∧ ¬ legal s.ibuf[(7 : Fin 14)] ∧
      ∀ j : Fin 14, 4 ≤ j.val → j.val < (7 : Fin 14).val → legal s.ibuf[j] := by
  unfold legal; decide

/-- Also for RclsAndLenokDescribeTheRegister, RvalIsWithinRkBytes, ParsedBufferIsRebuiltFromTheResult and
AcceptableFramesAreTheWellFormedOnes: a PFRM that completes. -/
theorem witness_TvalidIsTheOrderedTrailer :
    ∃ t, exec .pfrm (holding fixture) = .next t ∧ t.status = 0 ∧ t.tvalidFlag = true :=
  ⟨_, exec_after _ _, by decide, by decide⟩

theorem witness_RvalIsWithinRkBytes_deci :
    ∃ t, exec .deci (holding [0x29, 0x28]) = .next t ∧ t.status = 0 := ⟨_, exec_after _ _, by decide⟩

theorem witness_ResponseFramesParseToWhatTheyCarry :
    let s := holding [0x32, 0x4B, 0x5D, 0x35, 0x29, 0x21, 0x5B, 0x21, 0x29, 0x5B, 0x14, 0x13]
    ([0x32, 0x4B, 0x5D, 0x35] : List Byte).length = 4 ∧ 2 ≤ 3 ∧ 3000 < 2 ^ (8 * 2) ∧ s.ilen.toNat = 8 + 2 * 2 ∧
      buffered s = mkResp [0x32, 0x4B, 0x5D, 0x35] 8 3000 2 := by decide

theorem witness_CommandFramesAreNeverValidResponses :
    ∃ (u t : State), exec (.bcmd 13 1) State.reset = .next t ∧ u.ilen = 8 ∧ buffered u = t.obuf.toList :=
  ⟨holding [0x32, 0x4B, 0x28, 0x2F, 0x29, 0x5D, 0x29, 0x28], _, exec_after _ _, by decide, by decide⟩

/-- Two states that differ in every result register of an earlier parse. -/
theorem witness_PfrmDependsOnTheBufferAlone :
    let s := holding fixture
    let u := { holding fixture with rreg := 56, rval := 3312, status := 5 }
    ∃ t x, s.ilen = u.ilen ∧ buffered s = buffered u ∧ exec .pfrm s = .next t ∧ exec .pfrm u = .next x :=
  ⟨_, _, by decide, by decide, exec_after _ _, exec_after _ _⟩

theorem witness_PushStoresAtTheEndOfTheBuffer : (holding (List.replicate 13 0x29)).ilen.toNat < 14 := by decide

theorem witness_PushBeyondTheCapacityOnlyCounts :
    14 ≤ (holding (List.replicate 14 0x29)).ilen.toNat ∧ 14 ≤ ({ State.reset with ilen := 255 } : State).ilen.toNat := by
  decide

theorem witness_LoadPlacesTheBuffer :
    ({ State.reset with pending := commands (loadSeq fixture) ++ [.reset] } : State).pending =
      commands (loadSeq fixture) ++ [.reset] := rfl

/-- Also for OperationsRaiseOnlyTheirOwnFaults and FaultRegistersDescribeTheLastOperation: an operation that faults. -/
theorem witness_FaultsChangeOnlyTheFaultRegisters :
    (∃ t, exec (.qcmd 12) State.reset = .next t ∧ t.status ≠ 0) ∧
    (∃ t, (about (.command 0xB0000000)).pending = .command 0xB0000000 :: [] ∧
      step (about (.command 0xB0000000)) = .next t ∧ t.status ≠ 0) :=
  ⟨⟨_, exec_after _ _, by decide⟩, _, rfl, rfl, by decide⟩

/-- A serialiser that completes and one that faults. -/
theorem witness_SerialisersWriteOnlyTheOutputBuffer :
    (∃ t, serialiser (.encn 5) ∧ exec (.encn 5) State.reset = .next t ∧ t.status = 0) ∧
    ∃ t, serialiser (.qcmd 12) ∧ exec (.qcmd 12) State.reset = .next t ∧ t.status ≠ 0 :=
  ⟨⟨_, trivial, exec_after _ _, by decide⟩, _, trivial, exec_after _ _, by decide⟩

theorem witness_DecodersWriteOnlyTheirResults :
    (∃ t, exec .deci (holding []) = .next t ∧ t.status = 0) ∧
    (∃ t, exec .pfrm (holding fixture) = .next t ∧ t.status = 0) ∧
    ∃ b t, exec (.decb b) State.reset = .next t ∧ t.status = 0 :=
  ⟨⟨_, exec_after _ _, by decide⟩, ⟨_, exec_after _ _, by decide⟩, 0x29, _, exec_after _ _, by decide⟩

theorem witness_BufferOperationsWriteOnlyTheInputBufferOrTheLog :
    (∃ t, exec .clri (holding fixture) = .next t) ∧ (∃ t, exec .clrf (holding fixture) = .next t) ∧
    ∃ b t, exec (.push b) (holding fixture) = .next t :=
  ⟨⟨_, exec_after _ _⟩, ⟨_, exec_after _ _⟩, 0, _, exec_after _ _⟩

theorem witness_SerialisersAndDecodersCommute :
    ∃ a b c d, serialiser (.qcmd 13) ∧ readerOrLoader .pfrm ∧ exec (.qcmd 13) (holding fixture) = .next a ∧
      exec .pfrm a = .next b ∧ exec .pfrm (holding fixture) = .next c ∧ exec (.qcmd 13) c = .next d :=
  ⟨_, _, _, _, trivial, trivial, exec_after _ _, exec_after _ _, exec_after _ _, exec_after _ _⟩

/-- A logged fault that an operation other than CLRF keeps, and that CLRF and reset clear. -/
theorem witness_OnlyClrfAndResetClearTheLog :
    (∃ t, exec .clri { State.reset with flog := 2 } = .next t ∧ Instr.clri ≠ .clrf ∧
      (2 : BitVec 7).getLsbD 1 = true) ∧
    (∃ t, step { about (.command 0xA0000000) with flog := 2 } = .next t ∧ t.flog.getLsbD 1 = false) ∧
    ∃ t, step { about .reset with flog := 2 } = .next t ∧ t.flog.getLsbD 1 = false :=
  ⟨⟨_, exec_after _ _, by decide⟩, ⟨_, rfl, by decide⟩, _, rfl, by decide⟩

/-- A state that meets the invariant and takes a step. -/
theorem witness_EveryStepKeepsTheRegisterInvariant :
    (about (.command 0x90000000)).Inv ∧ ∃ t, step (about (.command 0x90000000)) = .next t :=
  ⟨⟨rfl, rfl, fun h => absurd rfl h, by decide, by decide, fun h => absurd h (by decide),
    fun h => absurd h (by decide)⟩, _, rfl⟩

end Sys2Proof.Tests
end

section
/-! What an operation can do, said once: it raises one of its own faults, or completes with one of the writes below. -/

namespace Sys2Proof.Machine

open Sys2Proof.Claims

/-- FINFO belongs to the fault's code (R150 to R156). -/
def Raised.Fits (r : Raised) : Prop := finfoFits (BitVec.ofNat 4 (faultCode r.kind)) (r.idx ++ r.byte)

/-- The two fields of the FINFO that a raise leaves (R14). -/
theorem finfo_fields {n : Nat} (h : n < 256) (byte : Byte) :
    (BitVec.ofNat 8 n ++ byte).toNat / 256 = n ∧ (BitVec.ofNat 8 n ++ byte).toNat % 256 = byte.toNat := by
  have hb : byte.toNat < 256 := byte.isLt
  rw [toNat_append, BitVec.toNat_ofNat]
  omega

theorem fits_invalidCipherByte {idx : Nat} (byte : Byte) (h : idx < 12) :
    (raised .invalidCipherByte idx byte).Fits :=
  (finfo_fields (by omega) byte).1.trans_lt h

theorem fits_frameTooShort {n : Nat} (h : n < 8) : (raised .frameTooShort n 0).Fits := by
  obtain ⟨idx_eq, byte_eq⟩ := finfo_fields (n := n) (by omega) 0
  exact ⟨byte_eq, idx_eq.trans_lt h⟩

theorem fits_oddLengthInput {n : Nat} (h : n ≤ 6) (odd : n % 2 = 1) : (raised .oddLengthInput n 0).Fits := by
  obtain ⟨idx_eq, byte_eq⟩ := finfo_fields (n := n) (by omega) 0
  have hn : n = 1 ∨ n = 3 ∨ n = 5 := by omega
  exact ⟨byte_eq, hn.imp idx_eq.trans (Or.imp idx_eq.trans idx_eq.trans)⟩

theorem fits_unknownRegister (reg : Byte) : (raised .unknownRegister 0 reg).Fits :=
  (finfo_fields (by decide) reg).1

theorem fits_tooLong {n : Nat} (h : 6 < n) (h8 : n < 256) : (raised .tooLong n 0).Fits := by
  obtain ⟨idx_eq, byte_eq⟩ := finfo_fields h8 0
  exact ⟨byte_eq, h.trans_eq idx_eq.symm⟩

theorem fits_illegalCommand (byte : Byte) : (⟨.illegalCommand, 0, byte⟩ : Raised).Fits :=
  (finfo_fields (by decide) byte).1

/-- The writes with which an operation completes, before STATUS and FINFO are cleared (R31). -/
inductive Writes (s : State) : Instr → State → Prop
  | output {i : Instr} {out : List Byte} (hi : serialiser i) (hl : out.length ∈ [1, 2, 4, 6, 8]) :
      Writes s i (s.emit out)
  | nibble (b : Byte) (n : Nibble) : Writes s (.decb b) (s.showNibble n)
  | integer (ms : List Byte) (hk : ms.length ≤ 3) (hl : s.ilen.toNat = 2 * ms.length) :
      Writes s .deci (s.showInteger (joinLE ms) ms.length)
  | frame (head ms tail : List Byte) (reg : Byte) (hk : ms.length ≤ 3) (hl : s.ilen.toNat = 8 + 2 * ms.length) :
      Writes s .pfrm (s.showFrame ⟨head, reg.toNat, joinLE ms, ms.length, tail⟩)
  | input (b : Byte) : Writes s (.push b) (s.pushByte b)
  | noInput : Writes s .clri s.emptyInput
  | noLog : Writes s .clrf s.clearLog

/-- The operation raises a fault of its own, with the FINFO that belongs to it (R165). -/
def MayRaise (i : Instr) (r : Raised) : Prop := faultCode r.kind ∈ canRaise i ∧ r.Fits

/-- The operation completes with writes of its own, or raises a fault of its own. -/
def Ends (i : Instr) (s : State) : Prop :=
  (∃ u, Writes s i u ∧ exec i s = .next u.complete) ∨ (∃ r, MayRaise i r ∧ exec i s = .next (s.raise r))

theorem Ends.completes {i : Instr} {s u : State} (hu : Writes s i u) (e : exec i s = .next u.complete) : Ends i s :=
  .inl ⟨u, hu, e⟩

theorem Ends.raises {i : Instr} {s : State} {kind : FaultKind} {idx : Nat} {byte : Byte}
    (hc : faultCode kind ∈ canRaise i) (hf : (raised kind idx byte).Fits)
    (e : exec i s = .next (s.raise (raised kind idx byte))) : Ends i s :=
  .inr ⟨_, ⟨hc, hf⟩, e⟩

/-- ENCI puts out one of the lengths that OLEN can hold (R17, R91). -/
theorem length_encInt_mem (v : Nat) : (encInt v).length ∈ [1, 2, 4, 6, 8] := by
  rw [length_encInt]
  rcases nbytes_cases v with h | h | h <;> simp [h]

theorem buildCmd_output {i : Instr} (s : State) (reg pl : Byte) (hi : serialiser i) :
    Writes s i (s.emit (buildCmd reg pl)) :=
  .output hi (by simp)

theorem length_slice (raw : List Byte) (a b : Nat) : (slice raw a b).length = min (b - a) (raw.length - a) := by
  simp [slice]

theorem length_before_lt {raw l r : List Byte} {b : Byte} (h : raw = l ++ b :: r) : l.length < raw.length := by
  simp [h]

theorem deci_ends (s : State) : Ends .deci s := by
  rcases exec_deci_cases s with ⟨h6, e⟩ | ⟨h6, odd, e⟩ | ⟨ms, hk, hl, -, e⟩ | ⟨l, b, r, h6, -, hs, -, -, e⟩
  · exact .raises (by decide) (fits_tooLong h6 s.ilen.isLt) e
  · exact .raises (by decide) (fits_oddLengthInput h6 odd) e
  · exact .completes (.integer ms hk hl) e
  · have hlt := length_before_lt hs
    rw [s.length_input (by omega)] at hlt
    exact .raises (by decide) (fits_invalidCipherByte b (by omega)) e

theorem pfrm_ends (s : State) : Ends .pfrm s := by
  rcases exec_pfrm_cases s with ⟨h8, e⟩ | ⟨h14, e⟩ | ⟨h8, h14, hlen,
    ⟨head, ms, tail, reg, -, -, hk, hl, -, e⟩ | ⟨l, b, r, hs, -, -, e⟩ | ⟨reg, -, odd, e⟩ |
    ⟨reg, l, b, r, -, -, hs, -, -, e⟩⟩
  · exact .raises (by decide) (fits_frameTooShort h8) e
  · exact .raises (by decide) (fits_tooLong (by omega) s.ilen.isLt) e
  · exact .completes (.frame head ms tail reg hk hl) e
  · have hlt := length_before_lt hs
    rw [length_slice] at hlt
    exact .raises (by decide) (fits_invalidCipherByte b (by omega)) e
  · exact .raises (by decide) (fits_oddLengthInput (by omega) (by omega)) e
  · have hlt := length_before_lt hs
    rw [length_slice] at hlt
    exact .raises (by decide) (fits_invalidCipherByte b (by omega)) e

theorem qcmd_ends (reg : Byte) (s : State) : Ends (.qcmd reg) s := by
  cases h : plen reg with
  | some k => exact .completes (buildCmd_output s reg _ trivial) (exec_qcmd_some s h)
  | none => exact .raises (List.mem_singleton_self _) (fits_unknownRegister reg) (exec_qcmd_none s h)

theorem decb_ends (b : Byte) (s : State) : Ends (.decb b) s := by
  rcases exec_decb_cases b s with ⟨n, -, e⟩ | ⟨-, e⟩
  · exact .completes (.nibble b n) e
  · exact .raises (List.mem_singleton_self _) (fits_invalidCipherByte b (by omega)) e

/-- Every operation, from every state, ends in one of the two ways (R31, R159). -/
theorem exec_ends (i : Instr) (s : State) : Ends i s := by
  cases i with
  | encn n => exact .completes (.output trivial (by simp)) (exec_encn n s)
  | decb b => exact decb_ends b s
  | enci v => exact .completes (.output trivial (length_encInt_mem v.toNat)) (exec_enci v s)
  | deci => exact deci_ends s
  | bcmd reg pl => exact .completes (buildCmd_output s reg pl trivial) (exec_bcmd reg pl s)
  | qcmd reg => exact qcmd_ends reg s
  | pfrm => exact pfrm_ends s
  | push b => exact .completes (.input b) (exec_push b s)
  | clri => exact .completes .noInput (exec_clri s)
  | clrf => exact .completes .noLog (exec_clrf s)

/-- All that an operation can answer. -/
theorem exec_next_cases {i : Instr} {s t : State} (h : exec i s = .next t) :
    (∃ u, Writes s i u ∧ t = u.complete) ∨ (∃ r, MayRaise i r ∧ t = s.raise r) := by
  rcases exec_ends i s with ⟨u, hu, e⟩ | ⟨r, hr, e⟩
  · exact .inl ⟨u, hu, next_inj (h.symm.trans e)⟩
  · exact .inr ⟨r, hr, next_inj (h.symm.trans e)⟩

end Sys2Proof.Machine
end

section
/-! The register invariant: power-on and reset meet it, and every step keeps it. -/

namespace Sys2Proof.Machine

/-- RCLS is 0, 1 or 2 (R24, R108). -/
theorem rcls_ne_three (reg : Byte) : rcls reg ≠ 3 := by
  unfold rcls
  split
  · decide
  · split <;> decide

namespace State.Inv

/-- With the control registers 0 the invariant asks nothing of the data registers (R10, R170). -/
theorem of_cleared {s : State} (hst : s.status = 0) (hfi : s.finfo = 0) (hlog : s.flog = 0) (hol : s.olen = 0)
    (hrf : s.rflg = 0) : s.Inv where
  info := by rw [hst, hfi]; rfl
  log_bit0 := by rw [hlog]; rfl
  logged h := absurd hst h
  out_length := by rw [hol]; decide
  no_class3 := by rw [State.rclsField, hrf]; decide
  trailer h := by rw [State.tvalidFlag, hrf] at h; cases h
  declared h := by rw [State.lenokFlag, hrf] at h; cases h

theorem reset : State.reset.Inv := of_cleared rfl rfl rfl rfl rfl

theorem assertReset (s : State) : s.assertReset.Inv := of_cleared rfl rfl rfl rfl rfl

variable {s : State} (h : s.Inv)
include h

theorem take (rest : List HostAction) : (s.take rest).Inv := { h with }

theorem takeRead (rest : List HostAction) : (s.takeRead rest).Inv := { h with }

theorem hostRead (n : RegNum) : (s.hostRead n).Inv := { h with }

theorem complete : s.complete.Inv := { h with info := rfl, logged := absurd rfl }

theorem raise {r : Raised} (hr : r.Fits) : (s.raise r).Inv := { h with
  info := hr
  log_bit0 := by
    rw [State.raise_flog, BitVec.getLsbD_or, h.log_bit0]
    cases r.kind <;> rfl
  logged := fun _ => by
    rw [State.raise_flog, State.raise_status, BitVec.getLsbD_or, Bool.or_eq_true]
    exact .inr (by cases r.kind <;> rfl) }

theorem emit {out : List Byte} (hl : out.length ∈ [1, 2, 4, 6, 8]) : (s.emit out).Inv := { h with
  out_length := by
    have all : ∀ n ∈ [1, 2, 4, 6, 8], (BitVec.ofNat 4 n).toNat ∈ [0, 1, 2, 4, 6, 8] := by decide
    exact all _ hl }

theorem showFrame (f : Frame) : (s.showFrame f).Inv := by
  obtain ⟨hv, hl, hc⟩ := frameFlags_fields f.tail (BitVec.ofNat 8 f.reg) f.k
  refine { h with no_class3 := ?_, trailer := fun ht => ?_, declared := fun hd => ?_ }
  · rw [State.rclsField, State.showFrame_rflg, hc]
    exact rcls_ne_three _
  · have tail_eq : f.tail = tailOk := eq_of_beq (hv.symm.trans ht)
    rw [State.showFrame_rtail, tail_eq]
    rfl
  · have plen_eq : plen (BitVec.ofNat 8 f.reg) = some f.k := eq_of_beq (hl.symm.trans hd)
    rw [State.showFrame_rreg, plen_eq]
    rfl

/-- CLRF forgets a fault that STATUS still shows, so STATUS must be cleared with the log (R122). -/
theorem clearLog_complete : s.clearLog.complete.Inv := { h with
  info := rfl
  log_bit0 := BitVec.getLsbD_zero
  logged := absurd rfl }

theorem writes_complete {i : Instr} {u : State} (hu : Writes s i u) : u.complete.Inv := by
  cases hu with
  | output _ hl => exact (h.emit hl).complete
  | nibble b n => exact complete { h with }
  | integer ms => exact complete { h with }
  | frame head ms tail reg => exact (h.showFrame _).complete
  | input b => exact complete { h with }
  | noInput => exact complete { h with }
  | noLog => exact h.clearLog_complete

/-- Every operation keeps the invariant. -/
theorem exec {i : Instr} {t : State} (ht : Machine.exec i s = .next t) : t.Inv := by
  rcases exec_next_cases ht with ⟨u, hu, rfl⟩ | ⟨r, hr, rfl⟩
  · exact h.writes_complete hu
  · exact h.raise hr.2

end State.Inv

/-- Settles O57, by the cases of a step and, for a command word, of the operation's writes. -/
theorem everyStepKeepsTheRegisterInvariant : Obligations.EveryStepKeepsTheRegisterInvariant := by
  intro s t h ht
  rcases step_cases s with ⟨-, e⟩ | ⟨rest, -, e⟩ | ⟨n, rest, -, e⟩ | ⟨cw, i, rest, -, -, e⟩ | ⟨cw, _, rest, -, -, e⟩
  · exact next_inj (e.symm.trans ht) ▸ h
  · exact next_inj (e.symm.trans ht) ▸ .assertReset _
  · exact next_inj (e.symm.trans ht) ▸ (h.takeRead rest).hostRead n
  · exact (h.take rest).exec (e.symm.trans ht)
  · exact next_inj (e.symm.trans ht) ▸ (h.take rest).raise (fits_illegalCommand _)

/-- Settles O58: the control registers are 0. -/
theorem powerOnMeetsTheRegisterInvariant : Obligations.PowerOnMeetsTheRegisterInvariant :=
  State.Inv.reset

/-- Settles O10, by evaluation of the state at power-on. -/
theorem powerOnHasTheResetValues : Obligations.PowerOnHasTheResetValues :=
  ⟨rfl, rfl, rfl, rfl, rfl, rfl, rfl, rfl⟩

end Sys2Proof.Machine
end

section
/-! What each operation changes and what it leaves, and what the host reads. -/

namespace Sys2Proof.Machine

open Sys2Proof.Claims

/-- No operation's writes touch FLOG but CLRF's (R15, R122). -/
theorem Writes.flog {i : Instr} {s u : State} (h : Writes s i u) :
    u.flog = if i = .clrf then 0 else s.flog := by
  cases h with
  | output hi =>
    have hne : i ≠ .clrf := by rintro rfl; exact hi
    rw [if_neg hne, State.emit_flog]
  | _ => rfl

/-- No operation raises IllegalCommand (R165). -/
theorem MayRaise.code_le_five {i : Instr} {r : Raised} (h : MayRaise i r) : faultCode r.kind ≤ 5 := by
  obtain ⟨hc, -⟩ := h
  cases i <;> simp [canRaise] at hc <;> omega

theorem State.raise_status_toNat (s : State) (r : Raised) : (s.raise r).status.toNat = faultCode r.kind := by
  rw [State.raise_status]; cases r.kind <;> rfl

/-- Settles O50, by how the operation ends. -/
theorem faultRegistersDescribeTheLastOperation : Obligations.FaultRegistersDescribeTheLastOperation := by
  intro i s t h
  rcases exec_next_cases h with ⟨u, hu, rfl⟩ | ⟨r, hr, rfl⟩
  · exact ⟨Nat.zero_le 5, fun _ => rfl, hu.flog⟩
  · have hne := s.raise_status_ne_zero r
    rw [State.raise_status_toNat, if_neg hne]
    exact ⟨hr.code_le_five, fun h0 => absurd h0 hne, rfl⟩

/-- A serialiser's bytes of OBUF from its OLEN up are the old ones (R27). -/
theorem State.emit_obuf_beyond (s : State) {out : List Byte} (hl : out.length ∈ [1, 2, 4, 6, 8]) (j : Fin 8)
    (hj : (s.emit out).olen.toNat ≤ j.val) : (s.emit out).obuf[j] = s.obuf[j] := by
  have all : ∀ n ∈ [1, 2, 4, 6, 8], (BitVec.ofNat 4 n).toNat = n := by decide
  rw [State.emit_olen, all _ hl] at hj
  have e := writeBytes_getElem out s.obuf 0 j.val j.isLt
  rw [if_pos (Nat.zero_le _), Nat.sub_zero, List.getD_eq_default _ _ hj] at e
  exact e

/-- Settles O51: what a serialiser writes is its output, and a raise writes none. -/
theorem serialisersWriteOnlyTheOutputBuffer : Obligations.SerialisersWriteOnlyTheOutputBuffer := by
  intro i s t hi h
  rcases exec_next_cases h with ⟨u, hu, rfl⟩ | ⟨r, -, rfl⟩
  · cases hu with
    | output _ hl =>
      have beyond := s.emit_obuf_beyond hl
      simpa [sameHost] using beyond
    | _ => exact hi.elim
  · have hne : (s.raise r).status ≠ 0#4 := s.raise_status_ne_zero r
    simp [sameHost, hne, -State.raise_status]

/-- Settles O52, by the writes of each decoder; a raise writes no result. -/
theorem decodersWriteOnlyTheirResults : Obligations.DecodersWriteOnlyTheirResults := by
  intro i s t hi h
  rcases exec_next_cases h with ⟨u, hu, rfl⟩ | ⟨r, -, rfl⟩
  · cases hu with
    | nibble b n => simp [sameHost]
    | integer ms => simp [sameHost]
    | frame head ms tail reg => simp [sameHost]
    | output hs => rcases hi with rfl | rfl | ⟨b, rfl⟩ <;> exact hs.elim
    | _ => simp at hi
  · have hne : (s.raise r).status ≠ 0#4 := s.raise_status_ne_zero r
    simp [sameHost, hne, -State.raise_status]

/-- PUSH writes IBUF only at the old ILEN (R26, R120). -/
theorem State.pushByte_ibuf_ne (s : State) (b : Byte) (j : Fin 14) (hj : j.val ≠ s.ilen.toNat) :
    (s.pushByte b).ibuf[j] = s.ibuf[j] := by
  rw [State.pushByte_ibuf]
  split
  · exact Vector.getElem_setIfInBounds_ne j.isLt (Ne.symm hj)
  · rfl

/-- Settles O53: none of the three raises (R165), and each has its one write. -/
theorem bufferOperationsWriteOnlyTheInputBufferOrTheLog :
    Obligations.BufferOperationsWriteOnlyTheInputBufferOrTheLog := by
  intro i s t hi h
  rcases exec_next_cases h with ⟨u, hu, rfl⟩ | ⟨r, ⟨hr, -⟩, -⟩
  · cases hu with
    | input b =>
      have elsewhere := s.pushByte_ibuf_ne b
      simpa [sameHost] using elsewhere
    | noInput => simp [sameHost]
    | noLog => simp [sameHost]
    | output hs => rcases hi with rfl | rfl | ⟨b, rfl⟩ <;> exact hs.elim
    | _ => simp at hi
  · rcases hi with rfl | rfl | ⟨b, rfl⟩ <;> cases hr

/-- A value of up to three magnitude bytes fits the registers that show it, and is below 2^(8 RK) there (R20, R21). -/
theorem shown_value_lt (ms : List Byte) (hk : ms.length ≤ 3) :
    (BitVec.ofNat 2 ms.length).toNat = ms.length ∧
    (BitVec.ofNat 24 (joinLE ms)).toNat < 2 ^ (8 * (BitVec.ofNat 2 ms.length).toNat) := by
  have k_eq : (BitVec.ofNat 2 ms.length).toNat = ms.length := by
    rw [BitVec.toNat_ofNat]; omega
  refine ⟨k_eq, ?_⟩
  rw [k_eq, BitVec.toNat_ofNat]
  exact lt_of_le_of_lt (Nat.mod_le _ _) (joinLE_lt ms)

/-- Settles O38, by the two writes that set RVAL and RK. -/
theorem rvalIsWithinRkBytes : Obligations.RvalIsWithinRkBytes := by
  intro s t i hi h h0
  rcases exec_next_cases h with ⟨u, hu, rfl⟩ | ⟨r, -, rfl⟩
  · cases hu with
    | integer ms hk hl =>
      obtain ⟨k_eq, hlt⟩ := shown_value_lt ms hk
      exact ⟨hlt, nofun, fun _ => (congrArg (2 * ·) k_eq).trans hl.symm⟩
    | frame head ms tail reg hk hl =>
      obtain ⟨k_eq, hlt⟩ := shown_value_lt ms hk
      exact ⟨hlt, fun _ => (congrArg (8 + 2 * ·) k_eq).trans hl.symm, nofun⟩
    | output hs => rcases hi with rfl | rfl <;> exact hs.elim
    | _ => simp at hi
  · exact absurd h0 (s.raise_status_ne_zero r)

/-- The read port on a byte of OBUF (R10). -/
theorem State.readPort_obuf (s : State) {n : RegNum} (i : Fin 8) (h : n.toNat = 16 + i.val) :
    s.readPort n = (s.obuf[i]).setWidth 32 := by
  have in_obuf : 16 + i.val < 24 := by omega
  unfold State.readPort
  split
  case h_14 => simp [h, in_obuf]
  all_goals omega

/-- The read port on a byte of IBUF (R10). -/
theorem State.readPort_ibuf (s : State) {n : RegNum} (i : Fin 14) (h : n.toNat = 32 + i.val) :
    s.readPort n = (s.ibuf[i]).setWidth 32 := by
  have beyond_obuf : ¬ 32 + i.val < 24 := by omega
  have in_ibuf : 32 + i.val < 46 := by omega
  unfold State.readPort
  split
  case h_14 => simp [h, beyond_obuf, in_ibuf]
  all_goals omega

theorem step_read {s : State} {n : RegNum} {rest : List HostAction} (h : s.pending = .read n :: rest) :
    step s = .next ((s.takeRead rest).hostRead n) := by
  simp [step, h]

/-- Settles O13: each number selects its register in the read port. -/
theorem hostReadReturnsTheNumberedRegister : Obligations.HostReadReturnsTheNumberedRegister := by
  intro s rest n v h hv
  suffices port : (s.takeRead rest).readPort n = v by
    rw [step_read h, State.hostRead, port]; rfl
  rcases hv with ⟨rfl, rfl⟩ | ⟨rfl, rfl⟩ | ⟨rfl, rfl⟩ | ⟨rfl, rfl⟩ | ⟨rfl, rfl⟩ | ⟨rfl, rfl⟩ | ⟨rfl, rfl⟩ |
    ⟨rfl, rfl⟩ | ⟨rfl, rfl⟩ | ⟨rfl, rfl⟩ | ⟨rfl, rfl⟩ | ⟨rfl, rfl⟩ | ⟨rfl, rfl⟩ | ⟨i, hn, rfl⟩ | ⟨i, hn, rfl⟩
  iterate 13 · rfl
  · exact State.readPort_obuf _ i hn
  · exact State.readPort_ibuf _ i hn

end Sys2Proof.Machine
end

section
/-! What DECI makes of a buffer that holds magnitude bytes. -/

namespace Sys2Proof.Machine

open Sys2Proof.Claims

/-- DECI's operand in a buffer of the pairs of at most three magnitude bytes (R92, R95). -/
theorem State.inputInteger_flatMap {s : State} {ms : List Byte} (hk : ms.length ≤ 3)
    (hl : s.ilen.toNat = 2 * ms.length) (hs : s.input s.ilen.toNat = ms.flatMap pack2) :
    s.inputInteger = .ok (joinLE ms, ms.length) := by
  have in_range : ¬ 2 * kMax < s.ilen.toNat := by simp only [kMax]; omega
  rw [State.inputInteger, if_neg in_range, hs, decInt_flatMap]

/-- Settles O22: the buffer is the operand's pairs, and the spec's pairs and byte order are the machine's. -/
theorem deciReadsTheFirstPairAsLeastSignificant : Obligations.DeciReadsTheFirstPairAsLeastSignificant := by
  intro s ms hk hl hs
  rw [buffered_eq_input, pair_eq] at hs
  rw [exec_deci, State.inputInteger_flatMap hk hl hs, littleEndian_eq_joinLE]
  rfl

end Sys2Proof.Machine
end

section
/-! The five formats as numbers, and the two directions between an operation and its word (R61 to R63). -/

namespace Sys2Proof

theorem toNat_opField (cw : Word) : (opField cw).toNat = cw.toNat / 2 ^ 28 := by
  have := cw.isLt
  rw [opField, toNat_field]
  omega

theorem toNat_formZ (op : Nibble) : (formZ op).toNat = op.toNat * 2 ^ 28 := by
  simp only [formZ, toNat_append, BitVec.toNat_ofNat]
  omega

theorem toNat_formN (op n : Nibble) : (formN op n).toNat = op.toNat * 2 ^ 28 + n.toNat := by
  simp only [formN, toNat_append, BitVec.toNat_ofNat]
  omega

theorem toNat_formB (op : Nibble) (b : Byte) : (formB op b).toNat = op.toNat * 2 ^ 28 + b.toNat := by
  simp only [formB, toNat_append, BitVec.toNat_ofNat]
  omega

theorem toNat_formR (op : Nibble) (reg plen : Byte) :
    (formR op reg plen).toNat = op.toNat * 2 ^ 28 + plen.toNat * 2 ^ 8 + reg.toNat := by
  simp only [formR, toNat_append, BitVec.toNat_ofNat]
  omega

theorem toNat_formI (op : Nibble) (v : Magnitude) : (formI op v).toNat = op.toNat * 2 ^ 28 + v.toNat := by
  simp only [formI, toNat_append, BitVec.toNat_ofNat]
  omega

/-- A field of a word is the value that the word's number has there. -/
theorem field_eq {cw : Word} {a l : Nat} {x : BitVec l} (h : cw.toNat / 2 ^ a % 2 ^ l = x.toNat) :
    cw.extractLsb' a l = x :=
  BitVec.eq_of_toNat_eq ((toNat_field cw a l).trans h)

theorem opField_eq {cw : Word} {op : Nibble} (h : cw.toNat / 2 ^ 28 = op.toNat) : opField cw = op :=
  BitVec.eq_of_toNat_eq ((toNat_opField cw).trans h)

@[simp] theorem opField_formZ (op : Nibble) : opField (formZ op) = op :=
  opField_eq (by rw [toNat_formZ]; omega)

@[simp] theorem opField_formN (op n : Nibble) : opField (formN op n) = op :=
  opField_eq (by rw [toNat_formN]; omega)

@[simp] theorem opField_formB (op : Nibble) (b : Byte) : opField (formB op b) = op :=
  opField_eq (by rw [toNat_formB]; omega)

@[simp] theorem opField_formR (op : Nibble) (reg plen : Byte) : opField (formR op reg plen) = op :=
  opField_eq (by rw [toNat_formR]; omega)

@[simp] theorem opField_formI (op : Nibble) (v : Magnitude) : opField (formI op v) = op :=
  opField_eq (by rw [toNat_formI]; omega)

theorem whenZero_eq_ok {k : Nat} {zero : BitVec k} (op : Nibble) (i : Instr) (h : zero.toNat = 0) :
    whenZero zero op i = .ok i :=
  if_pos (BitVec.eq_of_toNat_eq h)

@[simp] theorem decodeZ_formZ (op : Nibble) (i : Instr) : decodeZ (formZ op) i = .ok i :=
  whenZero_eq_ok _ _ (by rw [toNat_field, toNat_formZ]; omega)

@[simp] theorem decodeN_formN (op n : Nibble) (f : Nibble → Instr) : decodeN (formN op n) f = .ok (f n) := by
  have operand : (formN op n).extractLsb' 0 4 = n := field_eq (by rw [toNat_formN]; omega)
  have zero : ((formN op n).extractLsb' 4 24).toNat = 0 := by rw [toNat_field, toNat_formN]; omega
  rw [decodeN, operand, whenZero_eq_ok _ _ zero]

@[simp] theorem decodeB_formB (op : Nibble) (b : Byte) (f : Byte → Instr) : decodeB (formB op b) f = .ok (f b) := by
  have operand : (formB op b).extractLsb' 0 8 = b := field_eq (by rw [toNat_formB]; omega)
  have zero : ((formB op b).extractLsb' 8 20).toNat = 0 := by rw [toNat_field, toNat_formB]; omega
  rw [decodeB, operand, whenZero_eq_ok _ _ zero]

@[simp] theorem decodeR_formR (op : Nibble) (reg plen : Byte) (f : Byte → Byte → Instr) :
    decodeR (formR op reg plen) f = .ok (f reg plen) := by
  have low : (formR op reg plen).extractLsb' 0 8 = reg := field_eq (by rw [toNat_formR]; omega)
  have high : (formR op reg plen).extractLsb' 8 8 = plen := field_eq (by rw [toNat_formR]; omega)
  have zero : ((formR op reg plen).extractLsb' 16 12).toNat = 0 := by rw [toNat_field, toNat_formR]; omega
  rw [decodeR, low, high, whenZero_eq_ok _ _ zero]

@[simp] theorem decodeI_formI (op : Nibble) (v : Magnitude) (f : Magnitude → Instr) :
    decodeI (formI op v) f = .ok (f v) := by
  have operand : (formI op v).extractLsb' 0 24 = v := field_eq (by rw [toNat_formI]; omega)
  have zero : ((formI op v).extractLsb' 24 4).toNat = 0 := by rw [toNat_field, toNat_formI]; omega
  rw [decodeI, operand, whenZero_eq_ok _ _ zero]

/-- Settles O3, by the opcode's arm of the decoder and the format of its word. -/
theorem decodingUndoesEncoding : Obligations.DecodingUndoesEncoding := by
  intro i
  cases i with
  | encn n => rw [encode, decode, opField_formN]; exact decodeN_formN 0x1 n .encn
  | decb b => rw [encode, decode, opField_formB]; exact decodeB_formB 0x2 b .decb
  | enci v => rw [encode, decode, opField_formI]; exact decodeI_formI 0x3 v .enci
  | deci => rw [encode, decode, opField_formZ]; exact decodeZ_formZ 0x4 .deci
  | bcmd reg plen => rw [encode, decode, opField_formR]; exact decodeR_formR 0x5 reg plen .bcmd
  | qcmd reg => rw [encode, decode, opField_formB]; exact decodeB_formB 0x6 reg .qcmd
  | pfrm => rw [encode, decode, opField_formZ]; exact decodeZ_formZ 0x7 .pfrm
  | push b => rw [encode, decode, opField_formB]; exact decodeB_formB 0x8 b .push
  | clri => rw [encode, decode, opField_formZ]; exact decodeZ_formZ 0x9 .clri
  | clrf => rw [encode, decode, opField_formZ]; exact decodeZ_formZ 0xA .clrf

theorem formZ_of_fields {cw : Word} {op : Nibble} (hop : (opField cw).toNat = op.toNat)
    (hz : (cw.extractLsb' 0 28).toNat = 0) : formZ op = cw := by
  rw [toNat_opField] at hop
  rw [toNat_field] at hz
  apply BitVec.eq_of_toNat_eq
  rw [toNat_formZ]; omega

theorem formN_of_fields {cw : Word} {op : Nibble} (hop : (opField cw).toNat = op.toNat)
    (hz : (cw.extractLsb' 4 24).toNat = 0) : formN op (cw.extractLsb' 0 4) = cw := by
  rw [toNat_opField] at hop
  rw [toNat_field] at hz
  apply BitVec.eq_of_toNat_eq
  rw [toNat_formN, toNat_field]; omega

theorem formB_of_fields {cw : Word} {op : Nibble} (hop : (opField cw).toNat = op.toNat)
    (hz : (cw.extractLsb' 8 20).toNat = 0) : formB op (cw.extractLsb' 0 8) = cw := by
  rw [toNat_opField] at hop
  rw [toNat_field] at hz
  apply BitVec.eq_of_toNat_eq
  rw [toNat_formB, toNat_field]; omega

theorem formR_of_fields {cw : Word} {op : Nibble} (hop : (opField cw).toNat = op.toNat)
    (hz : (cw.extractLsb' 16 12).toNat = 0) : formR op (cw.extractLsb' 0 8) (cw.extractLsb' 8 8) = cw := by
  rw [toNat_opField] at hop
  rw [toNat_field] at hz
  apply BitVec.eq_of_toNat_eq
  rw [toNat_formR, toNat_field, toNat_field]; omega

theorem formI_of_fields {cw : Word} {op : Nibble} (hop : (opField cw).toNat = op.toNat)
    (hz : (cw.extractLsb' 24 4).toNat = 0) : formI op (cw.extractLsb' 0 24) = cw := by
  rw [toNat_opField] at hop
  rw [toNat_field] at hz
  apply BitVec.eq_of_toNat_eq
  rw [toNat_formI, toNat_field]; omega

/-- Settles O4: opcode, operand fields and zero bits are all of a word. -/
theorem legalWordsAreEncodings : Obligations.LegalWordsAreEncodings := by
  intro cw i h
  rcases decode_ok_cases h with ⟨rfl, hop, hz⟩ | ⟨rfl, hop, hz⟩ | ⟨rfl, hop, hz⟩ | ⟨rfl, hop, hz⟩ | ⟨rfl, hop, hz⟩ |
    ⟨rfl, hop, hz⟩ | ⟨rfl, hop, hz⟩ | ⟨rfl, hop, hz⟩ | ⟨rfl, hop, hz⟩ | ⟨rfl, hop, hz⟩
  · exact formN_of_fields hop hz
  · exact formB_of_fields hop hz
  · exact formI_of_fields hop hz
  · exact formZ_of_fields hop hz
  · exact formR_of_fields hop hz
  · exact formB_of_fields hop hz
  · exact formZ_of_fields hop hz
  · exact formB_of_fields hop hz
  · exact formZ_of_fields hop hz
  · exact formZ_of_fields hop hz

/-- Settles O1, by evaluation of the decoder on the twelve words. -/
theorem specWordsDecodeAsWritten : Obligations.SpecWordsDecodeAsWritten := by
  unfold Obligations.SpecWordsDecodeAsWritten
  decide

end Sys2Proof
end

section
/-! Which row a word selects, and which words select none (R63, R64). -/

namespace Sys2Proof

open Sys2Proof.Claims

/-- Every operation's word selects the row of its mnemonic. -/
theorem encode_selects_its_row (i : Instr) : Laws.RowOfWord.Statement i := by
  cases i with
  | encn n => exact Laws.RowOfWord.encn n
  | decb b => exact Laws.RowOfWord.decb b
  | enci v => exact Laws.RowOfWord.enci v
  | deci => exact Laws.RowOfWord.deci
  | bcmd reg plen => exact Laws.RowOfWord.bcmd reg plen
  | qcmd reg => exact Laws.RowOfWord.qcmd reg
  | pfrm => exact Laws.RowOfWord.pfrm
  | push b => exact Laws.RowOfWord.push b
  | clri => exact Laws.RowOfWord.clri
  | clrf => exact Laws.RowOfWord.clrf

theorem decoded_selects_its_row {cw : Word} {i : Instr} (h : decode cw = .ok i) :
    ∃ r ∈ opRows, r.mnemonic = i.mnemonic ∧ r.selects cw = true :=
  legalWordsAreEncodings cw i h ▸ encode_selects_its_row i

/-- Every row's mask covers the opcode, so a word that selects the row has the row's opcode. -/
theorem opField_eq_of_selects {cw : Word} {r : OpRow} (hr : r ∈ opRows) (h : r.selects cw = true) :
    opField cw = opField r.value := by
  have covered : ∀ r ∈ opRows, r.mask.extractLsb' 28 4 = BitVec.allOnes 4 := by decide
  rw [← of_decide_eq_true h, opField, opField, BitVec.extractLsb'_and, covered r hr, BitVec.and_allOnes]

/-- No two rows share an opcode (R63). -/
theorem row_eq_of_opField_eq :
    ∀ r ∈ opRows, ∀ r' ∈ opRows, opField r.value = opField r'.value → r = r' := by decide

/-- No two rows share a mnemonic (R63). -/
theorem row_eq_of_mnemonic_eq : ∀ r ∈ opRows, ∀ r' ∈ opRows, r.mnemonic = r'.mnemonic → r = r' := by decide

/-- Settles O5: the word selects its own row, and rows differ in opcode and in mnemonic. -/
theorem decodedWordMatchesItsRowOnly : Obligations.DecodedWordMatchesItsRowOnly := by
  intro cw i h r hr
  obtain ⟨own, hown, hname, hsel⟩ := decoded_selects_its_row h
  constructor
  · intro hs
    have same : r = own :=
      row_eq_of_opField_eq r hr own hown ((opField_eq_of_selects hr hs).symm.trans (opField_eq_of_selects hown hsel))
    exact same ▸ hname
  · intro hm
    have same : r = own := row_eq_of_mnemonic_eq r hr own hown (hm.trans hname.symm)
    exact same ▸ hsel

/-- A rejected word has an unassigned opcode or a zero bit set (R64). -/
theorem illegalWord_of_decode_error {cw : Word} {e : Reject} (h : decode cw = .error e) : illegalWord cw := by
  have hop := toNat_opField cw
  have hlt := cw.isLt
  unfold decode at h
  split at h
  case h_11 =>
    simp only [imp_false] at *
    unfold illegalWord; omega
  all_goals
    have hz := whenZero_error.mp ⟨e, h⟩
    rw [toNat_field] at hz
    unfold illegalWord
    omega

/-- A word that selects a row has the row's number above the operand bits (R63). -/
theorem agrees_of_selects {cw : Word} {r : OpRow} (hs : r.selects cw = true) {k v : Nat} (hk : k ≤ 28)
    (hm : r.mask = BitVec.ofNat 32 (2 ^ 32 - 2 ^ k)) (hv : r.value.toNat = v) : cw.toNat / 2 ^ k * 2 ^ k = v :=
  ((selects_iff cw r.value hk r.mask r.mnemonic hm).mp hs).trans hv

/-- An illegal word differs from each row's match in the opcode or in a zero bit (R63, R64). -/
theorem selects_no_row_of_illegalWord {cw : Word} (h : illegalWord cw) : ∀ r ∈ opRows, r.selects cw = false := by
  intro r hr
  rw [Bool.eq_false_iff]
  intro hs
  unfold illegalWord at h
  simp only [opRows, List.mem_cons, List.not_mem_nil, or_false] at hr
  rcases hr with rfl | rfl | rfl | rfl | rfl | rfl | rfl | rfl | rfl | rfl
  · have agree : cw.toNat / 2 ^ 4 * 2 ^ 4 = 0x10000000 := agrees_of_selects hs (by decide) (by decide) (by decide)
    omega
  · have agree : cw.toNat / 2 ^ 8 * 2 ^ 8 = 0x20000000 := agrees_of_selects hs (by decide) (by decide) (by decide)
    omega
  · have agree : cw.toNat / 2 ^ 24 * 2 ^ 24 = 0x30000000 := agrees_of_selects hs (by decide) (by decide) (by decide)
    omega
  · have agree : cw.toNat / 2 ^ 0 * 2 ^ 0 = 0x40000000 := agrees_of_selects hs (by decide) (by decide) (by decide)
    omega
  · have agree : cw.toNat / 2 ^ 16 * 2 ^ 16 = 0x50000000 := agrees_of_selects hs (by decide) (by decide) (by decide)
    omega
  · have agree : cw.toNat / 2 ^ 8 * 2 ^ 8 = 0x60000000 := agrees_of_selects hs (by decide) (by decide) (by decide)
    omega
  · have agree : cw.toNat / 2 ^ 0 * 2 ^ 0 = 0x70000000 := agrees_of_selects hs (by decide) (by decide) (by decide)
    omega
  · have agree : cw.toNat / 2 ^ 8 * 2 ^ 8 = 0x80000000 := agrees_of_selects hs (by decide) (by decide) (by decide)
    omega
  · have agree : cw.toNat / 2 ^ 0 * 2 ^ 0 = 0x90000000 := agrees_of_selects hs (by decide) (by decide) (by decide)
    omega
  · have agree : cw.toNat / 2 ^ 0 * 2 ^ 0 = 0xA0000000 := agrees_of_selects hs (by decide) (by decide) (by decide)
    omega

/-- Settles O6, in a circle: rejected, illegal, no row, rejected. -/
theorem illegalWordsAreThoseOfNoRow : Obligations.IllegalWordsAreThoseOfNoRow := by
  intro cw
  have rejected_of_no_row (hno : ∀ r ∈ opRows, r.selects cw = false) : ∃ e, decode cw = .error e := by
    cases h : decode cw with
    | error e => exact ⟨e, rfl⟩
    | ok i =>
      obtain ⟨r, hr, -, hsel⟩ := decoded_selects_its_row h
      exact absurd hsel (Bool.eq_false_iff.mp (hno r hr))
  exact ⟨⟨fun ⟨_, he⟩ => illegalWord_of_decode_error he,
      fun hi => rejected_of_no_row (selects_no_row_of_illegalWord hi)⟩,
    ⟨selects_no_row_of_illegalWord, fun hno => (rejected_of_no_row hno).elim fun _ => illegalWord_of_decode_error⟩⟩

end Sys2Proof
end

section
/-! The assembler: its lines' words as numbers (R70, R71). -/

namespace Sys2Proof

open Sys2Proof.Claims

/-- Fitting the fields, as the assembler tests it (R62). -/
theorem wellFormed_iff (a : Asm) : a.wellFormed = true ↔ withinFields a := by
  cases a <;> simp [Asm.wellFormed, withinFields, fitsField]

theorem assemble_of_withinFields {a : Asm} (h : withinFields a) : a.assemble = some (a.instrs.map encode) :=
  if_pos ((wellFormed_iff a).mpr h)

theorem assemble_of_not_withinFields {a : Asm} (h : ¬ withinFields a) : a.assemble = none :=
  if_neg (mt (wellFormed_iff a).mp h)

theorem instrs_eq_lineOperations (a : Asm) : a.instrs = lineOperations a := by
  cases a with
  | load bytes => simp [Asm.instrs, lineOperations, loadSeq, asmBytes]
  | parse bytes => simp [Asm.instrs, lineOperations, parseSeq, loadSeq, asmBytes]
  | decode bytes => simp [Asm.instrs, lineOperations, decodeSeq, loadSeq, asmBytes]
  | _ => rfl

theorem toNat_encode_push {b : Nat} (h : b < 256) : (encode (.push (BitVec.ofNat 8 b))).toNat = 0x80000000 + b := by
  rw [encode, toNat_formB, BitVec.toNat_ofNat, Nat.mod_eq_of_lt h]
  rfl

theorem toNat_encode_bcmd {reg plen : Nat} (hreg : reg < 256) (hplen : plen < 256) :
    (encode (.bcmd (BitVec.ofNat 8 reg) (BitVec.ofNat 8 plen))).toNat = 0x50000000 + 0x100 * plen + reg := by
  rw [encode, toNat_formR, BitVec.toNat_ofNat, BitVec.toNat_ofNat, Nat.mod_eq_of_lt hreg, Nat.mod_eq_of_lt hplen,
    Nat.mul_comm plen]
  rfl

/-- The words of a LOAD as numbers (R71). -/
theorem map_toNat_encode_loadSeq {bytes : List Nat} (h : ∀ b ∈ bytes, b < 256) :
    ((loadSeq (asmBytes bytes)).map encode).map BitVec.toNat = 0x90000000 :: bytes.map (0x80000000 + ·) := by
  simp only [loadSeq, asmBytes, List.map_cons, List.map_map]
  exact congrArg (List.cons _) (List.map_congr_left fun b hb => toNat_encode_push (h b hb))

/-- The words of a line whose numbers fit, as numbers (R61, R63, R71). -/
theorem map_toNat_encode_instrs {a : Asm} (h : withinFields a) :
    (a.instrs.map encode).map BitVec.toNat = lineWords a := by
  cases a with
  | encn n => simpa [Asm.instrs, lineWords, withinFields, encode, toNat_formN] using h
  | decb b => simpa [Asm.instrs, lineWords, withinFields, encode, toNat_formB] using h
  | enci v => simpa [Asm.instrs, lineWords, withinFields, encode, toNat_formI] using h
  | bcmd reg plen =>
    obtain ⟨hreg, hplen⟩ := h
    exact congrArg (· :: []) (toNat_encode_bcmd hreg hplen)
  | qcmd reg => simpa [Asm.instrs, lineWords, withinFields, encode, toNat_formB] using h
  | push b => exact congrArg (· :: []) (toNat_encode_push h)
  | load bytes => exact map_toNat_encode_loadSeq h
  | parse bytes =>
    rw [Asm.instrs, parseSeq, List.map_append, List.map_append, map_toNat_encode_loadSeq h]
    rfl
  | decode bytes =>
    rw [Asm.instrs, decodeSeq, List.map_append, List.map_append, map_toNat_encode_loadSeq h]
    rfl
  | deci => rfl
  | pfrm => rfl
  | clri => rfl
  | clrf => rfl

/-- Settles O8: the fit test, the words as numbers, and decoding after encoding. -/
theorem assembledLinesDecodeToTheirOperations : Obligations.AssembledLinesDecodeToTheirOperations := by
  intro a
  refine ⟨fun h => ⟨_, assemble_of_withinFields h, map_toNat_encode_instrs h, ?_⟩, assemble_of_not_withinFields⟩
  rw [instrs_eq_lineOperations, List.map_map]
  exact List.map_congr_left fun i _ => decodingUndoesEncoding i

end Sys2Proof
end

section
/-! The words of LOAD, carried out (R71, R120, R121). -/

namespace Sys2Proof.Machine

/-- An input buffer that held n bytes after more were appended: those beyond its end are dropped (R26, R120). -/
def appended (buf : Vector Byte 14) (n : Nat) (bytes : List Byte) : Vector Byte 14 :=
  Vector.ofFn fun i => if n ≤ i.val then bytes.getD (i.val - n) buf[i] else buf[i]

theorem appended_getElem (buf : Vector Byte 14) (n : Nat) (bytes : List Byte) (i : Fin 14) :
    (appended buf n bytes)[i] = if n ≤ i.val then bytes.getD (i.val - n) buf[i] else buf[i] :=
  Vector.getElem_ofFn i.isLt

/-- The state after bytes were appended to its input buffer, all of them counted up to 255 (R16, R120). -/
def State.append (s : State) (bytes : List Byte) : State :=
  { s with
    ibuf := appended s.ibuf s.ilen.toNat bytes
    ilen := BitVec.ofNat 8 (min (s.ilen.toNat + bytes.length) 255) }

theorem State.append_nil (s : State) : s.append [] = s := by
  have stored : appended s.ibuf s.ilen.toNat [] = s.ibuf := by simp [appended]
  have counted : BitVec.ofNat 8 (min s.ilen.toNat 255) = s.ilen := by
    rw [Nat.min_eq_left (Nat.le_of_lt_succ s.ilen.isLt), BitVec.ofNat_toNat, BitVec.setWidth_eq]
  rw [State.append, stored, List.length_nil, Nat.add_zero, counted]

theorem State.pushByte_ilen_toNat (s : State) (b : Byte) :
    (s.pushByte b).ilen.toNat = min (s.ilen.toNat + 1) 255 := by
  rw [State.pushByte_ilen, BitVec.toNat_ofNat]
  simp only [ilenMax]
  omega

/-- PUSH stores its byte at the old ILEN (R120). -/
theorem State.pushByte_ibuf_eq (s : State) (b : Byte) (j : Fin 14) (hj : j.val = s.ilen.toNat) :
    (s.pushByte b).ibuf[j] = b := by
  have room : s.ilen.toNat < lMax := hj ▸ j.isLt
  rw [State.pushByte_ibuf, if_pos room]
  simp [← hj]

/-- The buffer after PUSH and further bytes is the buffer after all of them. -/
theorem appended_cons (s : State) (b : Byte) (bytes : List Byte) :
    appended s.ibuf s.ilen.toNat (b :: bytes) = appended (s.pushByte b).ibuf (s.pushByte b).ilen.toNat bytes := by
  have hl := s.pushByte_ilen_toNat b
  refine Vector.ext fun j hj => ?_
  obtain ⟨i, rfl⟩ : ∃ i : Fin 14, i.val = j := ⟨⟨j, hj⟩, rfl⟩
  refine (appended_getElem _ _ _ i).trans (Eq.trans ?_ (appended_getElem _ _ _ i).symm)
  rcases Nat.lt_trichotomy i.val s.ilen.toNat with before | at_end | beyond
  · rw [if_neg (by omega), if_neg (by omega), s.pushByte_ibuf_ne b i (by omega)]
  · have index : i.val - s.ilen.toNat = 0 := by omega
    rw [if_pos (by omega), if_neg (by omega), s.pushByte_ibuf_eq b i at_end, index, List.getD_cons_zero]
  · have index : i.val - s.ilen.toNat = i.val - (s.pushByte b).ilen.toNat + 1 := by omega
    rw [if_pos (by omega), if_pos (by omega), s.pushByte_ibuf_ne b i (by omega), index, List.getD_cons_succ]

/-- Appending is pushing the bytes one by one. -/
theorem State.append_cons (s : State) (b : Byte) (bytes : List Byte) :
    s.append (b :: bytes) = (s.pushByte b).append bytes := by
  have counted :
      min (s.ilen.toNat + (b :: bytes).length) 255 = min ((s.pushByte b).ilen.toNat + bytes.length) 255 := by
    rw [s.pushByte_ilen_toNat b, List.length_cons]
    omega
  rw [State.append, appended_cons, counted]
  rfl

/-- A state that shows no fault is as an operation that completes leaves it (R13, R14). -/
theorem State.complete_eq_self {s : State} (hst : s.status = 0) (hfi : s.finfo = 0) : s.complete = s := by
  rw [State.complete, ← hst, ← hfi]

/-- A run goes on from the state that its first step answers. -/
theorem run_succ (M : Host.Core) {s t : M.State} (k : Nat) (h : M.step s = .next t) : M.run (k + 1) s = M.run k t := by
  simp only [Host.Core.run, h]

/-- A step on the word of an operation carries the operation out (R50, R60). -/
theorem step_command {s : State} {i : Instr} {is : List Instr} {rest : List HostAction}
    (h : s.pending = commands (i :: is) ++ rest) : step s = exec i (s.take (commands is ++ rest)) := by
  have queued : s.pending = .command (encode i) :: (commands is ++ rest) := h
  simp [step, queued, decodingUndoesEncoding i]

/-- The pushes of a buffer, carried out from a state that shows no fault (R120). -/
theorem run_pushes (bytes : List Byte) (rest : List HostAction) (s : State)
    (h : s.pending = commands (bytes.map .push) ++ rest) (hst : s.status = 0) (hfi : s.finfo = 0) :
    core.run bytes.length s = .next { s.append bytes with pending := rest, epoch := s.epoch + bytes.length } := by
  induction bytes generalizing s with
  | nil =>
    rw [State.append_nil]
    subst h
    rfl
  | cons b bytes ih =>
    have pushed : step s = .next ((s.take (commands (bytes.map .push) ++ rest)).pushByte b).complete :=
      step_command h
    rw [List.length_cons, run_succ core _ pushed, ih _ rfl rfl rfl, State.append_cons]
    have counted : s.epoch + 1 + bytes.length = s.epoch + (bytes.length + 1) := by omega
    rw [← State.complete_eq_self (s := s.pushByte b) hst hfi, ← counted]
    rfl

/-- LOAD empties the input buffer and appends to it (R71, R121). -/
theorem run_load (bytes : List Byte) (rest : List HostAction) (s : State)
    (h : s.pending = commands (loadSeq bytes) ++ rest) :
    core.run (bytes.length + 1) s =
      .next { s.emptyInput.complete.append bytes with pending := rest, epoch := s.epoch + 1 + bytes.length } := by
  have emptied : step s = .next (s.take (commands (bytes.map .push) ++ rest)).emptyInput.complete := step_command h
  rw [run_succ core _ emptied]
  exact run_pushes bytes rest _ rfl rfl rfl

/-- Settles O47: LOAD appends to the empty buffer. -/
theorem loadPlacesTheBuffer : Obligations.LoadPlacesTheBuffer := by
  intro s bytes rest h
  refine ⟨_, run_load bytes rest s h, ?_, ?_, rfl, rfl, rfl, rfl, rfl, rfl, rfl, rfl, rfl, rfl, rfl, rfl, rfl⟩
  · simp [State.append]
  · intro i
    exact (appended_getElem s.ibuf 0 bytes i).trans (if_pos (Nat.zero_le _))

end Sys2Proof.Machine
end

section
/-! The nibble cipher's operations (R80 to R86): what ENCN puts out, what DECB answers on a legal and on an illegal
byte, and that each undoes the other. -/

namespace Sys2Proof.Machine

open Sys2Proof.Claims

/-- The cipher byte is the hexadecimal digit's code xor 0x19 (R86). -/
theorem sbox_closed_form (n : Nibble) :
    sbox n = BitVec.ofNat 8 (if n.toNat ≤ 9 then 0x30 + n.toNat else 0x37 + n.toNat) ^^^ 0x19 := by
  revert n; decide

/-- The word 1000000n (hex) is the format-N word of ENCN n (R61, R83). -/
theorem encode_encn (n : Nibble) : encode (.encn n) = 0x10000000#32 ||| n.setWidth 32 := by
  revert n; decide

/-- A serialiser that puts out a single byte leaves it in OBUF[0] (R27). -/
theorem State.emit_singleton_obuf_zero (s : State) (b : Byte) : (s.emit [b]).complete.obuf[0] = b :=
  writeBytes_getElem [b] s.obuf 0 0 (by decide)

/-- DECB of a nibble's cipher byte completes with that nibble (R84). -/
theorem exec_decb_sbox (n : Nibble) (s : State) : exec (.decb (sbox n)) s = .next (s.showNibble n).complete := by
  rw [exec_decb, dec_sbox]; rfl

/-- DECB of a byte outside the cipher's table raises InvalidCipherByte with IDX 0 (R84, R151). -/
theorem exec_decb_illegal {b : Byte} (s : State) (h : inv b = none) :
    exec (.decb b) s = .next (s.raise (raised .invalidCipherByte 0 b)) := by
  rw [exec_decb, dec_illegal 0 h]; rfl

/-- Settles O15, by decoding the encoding of ENCN n and by what ENCN emits. -/
theorem encnPutsTheCipherByteFirst : Obligations.EncnPutsTheCipherByteFirst := by
  intro n s
  constructor
  · rw [← encode_encn]
    exact decodingUndoesEncoding (.encn n)
  · rw [exec_encn, serialised_eq, cipher_eq_sbox]

/-- Settles O16, by the closed form of the table's entries. -/
theorem encnFollowsTheClosedForm : Obligations.EncnFollowsTheClosedForm := by
  intro n s
  refine ⟨_, exec_encn n s, ?_⟩
  rw [State.emit_singleton_obuf_zero, sbox_closed_form]

/-- Settles O17: the n-th byte of the spec's table is the machine's cipher byte of n. -/
theorem decbOfACipherByteGivesItsNibble : Obligations.DecbOfACipherByteGivesItsNibble := by
  intro n s
  rw [cipher_eq_sbox]
  exact exec_decb_sbox n s

/-- Settles O18: a byte is illegal exactly when the decode table has no entry for it. -/
theorem decbOfAnIllegalByteFaults : Obligations.DecbOfAnIllegalByteFaults := by
  intro b s h
  rw [exec_decb_illegal s (not_legal_iff.mp h), ← afterRaise_eq]
  rfl

/-- Settles O19: ENCN leaves the cipher byte of its nibble, and DECB completes on cipher bytes only. -/
theorem encnAndDecbUndoEachOther : Obligations.EncnAndDecbUndoEachOther := by
  constructor
  · intro n s t h
    obtain rfl := next_inj ((exec_encn n s).symm.trans h)
    rw [State.emit_singleton_obuf_zero]
    exact ⟨_, exec_decb_sbox n _, rfl, rfl⟩
  · intro b s t h hst
    rcases exec_decb_cases b s with ⟨n, rfl, e⟩ | ⟨-, e⟩
    · obtain rfl := next_inj (e.symm.trans h)
      exact ⟨_, exec_encn n _, State.emit_singleton_obuf_zero _ _⟩
    · obtain rfl := next_inj (e.symm.trans h)
      exact absurd hst (s.raise_status_ne_zero _)

end Sys2Proof.Machine
end

section
/-! The integer operations (R90 to R97): the digits that ENCI puts out, its output as its operand's code, the faults of
DECI in the order in which it tests, and DECI of what ENCI put out. -/

namespace Sys2Proof.Machine

open Sys2Proof.Claims

/-- The word 30vvvvvv (hex) is the format-I word of ENCI v (R61, R94). -/
theorem encode_enci (v : Magnitude) : encode (.enci v) = 0x30000000#32 ||| v.setWidth 32 := by
  have disjoint := Nat.two_pow_add_eq_or_of_lt v.isLt 0x30
  have hv := v.isLt
  apply BitVec.eq_of_toNat_eq
  rw [encode, toNat_formI, BitVec.toNat_or, BitVec.toNat_setWidth, Nat.mod_eq_of_lt (by omega)]
  exact disjoint

theorem bytesBE_succ (k v : Nat) : bytesBE (k + 1) v = BitVec.ofNat 8 (v / 2 ^ (8 * k)) :: bytesBE k v := by
  simp only [bytesBE, List.range_succ_eq_map, List.map_cons, List.map_map, Nat.shiftRight_eq_div_pow]
  refine congrArg _ (List.map_congr_left fun i _ => ?_)
  rw [Function.comp_apply, show k + 1 - 1 - i.succ = k - 1 - i by omega]

/-- The two cipher bytes of a number's low byte are those of its two low digits (R43). -/
theorem pack2_ofNat (n : Nat) :
    pack2 (BitVec.ofNat 8 n) = [sbox (BitVec.ofNat 4 (n / 16)), sbox (BitVec.ofNat 4 n)] := by
  have high : (BitVec.ofNat 8 n).extractLsb' 4 4 = BitVec.ofNat 4 (n / 16) := by
    apply BitVec.eq_of_toNat_eq
    simp only [toNat_field, BitVec.toNat_ofNat]
    omega
  have low : (BitVec.ofNat 8 n).extractLsb' 0 4 = BitVec.ofNat 4 n := by
    apply BitVec.eq_of_toNat_eq
    simp only [toNat_field, BitVec.toNat_ofNat]
    omega
  rw [pack2, high, low]

/-- The pairs of the k low bytes are the cipher bytes of the 2k low digits, most significant first (R43, R44). -/
theorem flatMap_pack2_bytesBE (k v : Nat) :
    (bytesBE k v).flatMap pack2 = (List.range (2 * k)).reverse.map (fun j => sbox (BitVec.ofNat 4 (v / 16 ^ j))) := by
  induction k with
  | zero => rfl
  | succ k ih =>
    have low : (2 : Nat) ^ (8 * k) = 16 ^ (2 * k) := by rw [Nat.pow_mul, Nat.pow_mul]
    have high : v / 16 ^ (2 * k) / 16 = v / 16 ^ (2 * k + 1) := by rw [Nat.div_div_eq_div_mul, Nat.pow_succ]
    rw [bytesBE_succ, List.flatMap_cons, pack2_ofNat, ih, low, high, show 2 * (k + 1) = 2 * k + 1 + 1 by omega,
      List.range_succ, List.range_succ]
    simp

/-- ENCI's output is the operand's digits in cipher (R91). -/
theorem map_cipher_digits (v : Nat) : (digits v).map cipher = encInt v := by
  rw [encInt, flatMap_pack2_bytesBE, digits, List.map_map]
  exact List.map_congr_left fun j _ => cipher_eq_sbox _

/-- Settles O20, by the format-I word of ENCI v and by what ENCI emits. -/
theorem enciPutsTheDigitsMostSignificantFirst : Obligations.EnciPutsTheDigitsMostSignificantFirst := by
  intro v s
  constructor
  · rw [← encode_enci]
    exact decodingUndoesEncoding (.enci v)
  · rw [exec_enci, serialised_eq, map_cipher_digits]

/-- The two byte orders are each other's reverse (R44). -/
theorem reverse_bytesBE (k v : Nat) : (bytesBE k v).reverse = bytesLE k v := by
  refine List.ext_getElem (by simp) fun i hi _ => ?_
  rw [List.length_reverse, length_bytesBE] at hi
  simp only [bytesBE, bytesLE, List.getElem_reverse, List.getElem_map, List.getElem_range, List.length_map,
    List.length_range]
  rw [show k - 1 - (k - 1 - i) = i by omega]

/-- nbytes is enough for every value of 24 bits (R91). -/
theorem lt_pow_nbytes {v : Nat} (h : v < 2 ^ 24) : v < 2 ^ (8 * nbytes v) := by
  unfold nbytes
  split
  · assumption
  · split <;> assumption

/-- The magnitude bytes hold the value (R91, R96). -/
theorem joinLE_reverse_bytesBE {v : Nat} (h : v < 2 ^ 24) : joinLE (bytesBE (nbytes v) v).reverse = v := by
  rw [reverse_bytesBE, joinLE_bytesLE, Nat.mod_eq_of_lt (lt_pow_nbytes h)]

theorem encInt_injective {v w : Nat} (hv : v < 2 ^ 24) (hw : w < 2 ^ 24) (h : encInt v = encInt w) : v = w := by
  have bytes : bytesBE (nbytes v) v = bytesBE (nbytes w) w := flatMap_pack2_injective h
  rw [← joinLE_reverse_bytesBE hv, ← joinLE_reverse_bytesBE hw, bytes]

theorem State.emit_olen_toNat (s : State) {out : List Byte} (h : out.length ≤ 8) :
    (s.emit out).olen.toNat = out.length := by
  rw [State.emit_olen, BitVec.toNat_ofNat]
  omega

/-- After a serialiser OBUF holds its output below OLEN (R17, R27). -/
theorem State.take_olen_emit (s : State) {out : List Byte} (h : out.length ≤ 8) :
    (s.emit out).obuf.toList.take (s.emit out).olen.toNat = out := by
  rw [s.emit_olen_toNat h]
  refine List.ext_getElem (by simp [h]) fun i _ hi => ?_
  have byte := writeBytes_getElem out s.obuf 0 i (by omega)
  rw [if_pos (Nat.zero_le i), Nat.sub_zero, List.getD_eq_getElem _ _ hi] at byte
  simpa using byte

theorem nbytes_le (v : Nat) : nbytes v ≤ 3 := by
  rcases nbytes_cases v with h | h | h <;> omega

theorem length_encInt_le (v : Nat) : (encInt v).length ≤ 8 := by
  have := nbytes_le v
  rw [length_encInt]
  omega

/-- Settles O21: the bytes below OLEN are ENCI's whole output, and it is the operand's code. -/
theorem enciLosesNoOperand : Obligations.EnciLosesNoOperand := by
  intro v w s u t x ht hx _ h
  obtain rfl := next_inj ((exec_enci v s).symm.trans ht)
  obtain rfl := next_inj ((exec_enci w u).symm.trans hx)
  have out : encInt v.toNat = encInt w.toNat :=
    calc encInt v.toNat = _ := (s.take_olen_emit (length_encInt_le _)).symm
      _ = _ := h
      _ = encInt w.toNat := u.take_olen_emit (length_encInt_le _)
  exact BitVec.eq_of_toNat_eq (encInt_injective v.isLt w.isLt out)

/-- A raise whose IDX is ILEN, as R159 writes it. -/
theorem raise_ilen (s : State) (kind : FaultKind) :
    s.raise (raised kind s.ilen.toNat 0) = afterRaise s (faultCode kind) s.ilen 0 := by
  rw [← afterRaise_eq, raised, BitVec.ofNat_toNat, BitVec.setWidth_eq]

/-- Settles O23: of DECI's outcomes only TooLong belongs to the length. -/
theorem deciOfMoreThanSixBytesIsTooLong : Obligations.DeciOfMoreThanSixBytesIsTooLong := by
  intro s h
  rcases exec_deci_cases s with ⟨-, e⟩ | ⟨h6, -⟩ | ⟨ms, hk, hl, -⟩ | ⟨l, b, r, h6, -⟩
  · exact e.trans (congrArg _ (raise_ilen s .tooLong))
  all_goals omega

/-- Settles O24: of DECI's outcomes only OddLengthInput belongs to the length. -/
theorem deciOfAnOddNumberOfBytesFaults : Obligations.DeciOfAnOddNumberOfBytesFaults := by
  intro s h odd
  rcases exec_deci_cases s with ⟨h6, -⟩ | ⟨-, -, e⟩ | ⟨ms, -, hl, -⟩ | ⟨l, b, r, -, even, -⟩
  · omega
  · exact e.trans (congrArg _ (raise_ilen s .oddLengthInput))
  all_goals omega

/-- The operand around its byte at index i. -/
theorem State.input_eq_append (s : State) {n : Nat} (i : Fin 14) (h : i.val < n) :
    s.input n = s.input i.val ++ s.ibuf[i] :: (s.input n).drop (i.val + 1) := by
  have hi : i.val < (s.input n).length := by simp [State.input, h]
  have byte : (s.input n)[i.val] = s.ibuf[i] := by simp [State.input]
  have before : (s.input n).take i.val = s.input i.val := by simp [State.input, List.take_take, h.le]
  rw [← byte, ← before, ← List.drop_eq_getElem_cons hi, List.take_append_drop]

/-- A byte of the operand stands in the buffer below the operand's length (R26). -/
theorem State.mem_input {s : State} {n : Nat} {c : Byte} (h : c ∈ s.input n) :
    ∃ j : Fin 14, j.val < n ∧ c = s.ibuf[j] := by
  obtain ⟨j, hj, rfl⟩ := List.mem_iff_getElem.mp h
  have bounds : j < n ∧ j < 14 := by simpa [State.input] using hj
  exact ⟨⟨j, bounds.2⟩, bounds.1, by simp [State.input]⟩

/-- Settles O25: the operand's first illegal byte is the one that DECI names. -/
theorem deciNamesTheFirstIllegalByte : Obligations.DeciNamesTheFirstIllegalByte := by
  intro s i h6 even hi illegal before
  have split_at := s.input_eq_append i hi
  have legal_before : ∀ c ∈ s.input i.val, ∃ n, c = sbox n := by
    intro c hc
    obtain ⟨j, hj, rfl⟩ := State.mem_input hc
    exact legal_iff.mp (before j hj)
  rcases exec_deci_cases s with ⟨h, -⟩ | ⟨-, odd, -⟩ | ⟨ms, -, -, hs, -⟩ | ⟨l, b, r, -, -, hs, hl, hb, e⟩
  · omega
  · omega
  · have mem : s.ibuf[i] ∈ ms.flatMap pack2 := by rw [← hs, split_at]; simp
    exact absurd (legal_iff.mpr (flatMap_pack2_legal mem)) illegal
  · obtain ⟨rfl, rfl⟩ :=
      first_illegal_unique (hs.symm.trans split_at) hl legal_before hb (not_legal_iff.mp illegal)
    rw [e, s.length_input (by omega), ← afterRaise_eq]
    rfl

/-- The mask of the middle byte (R93). -/
theorem and_ff00 (v : Nat) : v &&& 0xFF00 = 2 ^ 8 * (v / 2 ^ 8 % 2 ^ 8) := by
  rw [show 0xFF00 = (2 ^ 8 - 1) <<< 8 by rfl, Nat.mul_comm, ← Nat.shiftLeft_eq, ← Nat.shiftRight_eq_div_pow,
    ← Nat.and_two_pow_sub_one_eq_mod, Nat.shiftLeft_and_distrib]
  apply Nat.eq_of_testBit_eq
  intro j
  simp only [Nat.testBit_and, Nat.testBit_shiftLeft, Nat.testBit_shiftRight]
  by_cases hj : 8 ≤ j
  · simp [hj] -- v moved down and up again keeps its bits from 8 up
  · simp [hj] -- below bit 8 the mask is 0

/-- The byte reversal of R93 over two bytes, as a sum: its parts lie in disjoint places. -/
theorem bswap_two {v : Nat} (h : v < 2 ^ 16) : bswap 2 v = 2 ^ 8 * (v % 2 ^ 8) + v / 2 ^ 8 := by
  rw [Nat.two_pow_add_eq_or_of_lt (by omega), ← Nat.and_two_pow_sub_one_eq_mod, Nat.mul_comm, ← Nat.shiftLeft_eq,
    ← Nat.shiftRight_eq_div_pow]
  rfl

/-- The byte reversal of R93 over three bytes, as a sum. -/
theorem bswap_three {v : Nat} (h : v < 2 ^ 24) :
    bswap 3 v = 2 ^ 16 * (v % 2 ^ 8) + (2 ^ 8 * (v / 2 ^ 8 % 2 ^ 8) + v / 2 ^ 16) := by
  rw [Nat.two_pow_add_eq_or_of_lt (by omega), Nat.two_pow_add_eq_or_of_lt (by omega), ← Nat.or_assoc, ← and_ff00,
    ← Nat.and_two_pow_sub_one_eq_mod, Nat.mul_comm, ← Nat.shiftLeft_eq, ← Nat.shiftRight_eq_div_pow]
  rfl

/-- Decoding the magnitude bytes of encoding reverses them (R93). -/
theorem joinLE_bytesBE {v : Nat} (h : v < 2 ^ 24) : joinLE (bytesBE (nbytes v) v) = bswap (nbytes v) v := by
  have fits := lt_pow_nbytes h
  have nil : bytesBE 0 v = [] := rfl
  rcases nbytes_cases v with hk | hk | hk <;> rw [hk] at fits ⊢ <;>
    simp only [bytesBE_succ, nil, joinLE_cons, joinLE_nil, BitVec.toNat_ofNat]
  · rw [bswap, if_pos rfl]
    omega
  · rw [bswap_two fits]
    omega
  · rw [bswap_three fits]
    omega

/-- Settles O26: DECI's operand is ENCI's output, whose magnitude bytes it joins the other way round. -/
theorem deciOfEnciIsTheByteReversedOperand : Obligations.DeciOfEnciIsTheByteReversedOperand := by
  intro v s t u ht hlen hbuf
  obtain rfl := next_inj ((exec_enci v s).symm.trans ht)
  have hk : (bytesBE (nbytes v.toNat) v.toNat).length ≤ 3 := by
    rw [length_bytesBE]
    exact nbytes_le _
  have hl : u.ilen.toNat = 2 * (bytesBE (nbytes v.toNat) v.toNat).length := by
    rw [hlen, length_bytesBE, ← length_encInt]
    exact s.emit_olen_toNat (length_encInt_le _)
  have operand := State.inputInteger_flatMap hk hl (hbuf.trans (s.take_olen_emit (length_encInt_le _)))
  refine ⟨(u.showInteger _ _).complete, by rw [exec_deci, operand]; rfl, rfl, ?_, ?_⟩
  · have below : joinLE (bytesBE (nbytes v.toNat) v.toNat) < 2 ^ 24 :=
      (joinLE_lt _).trans_le (Nat.pow_le_pow_right (by decide) (by omega))
    rw [State.complete_rval, State.showInteger_rval, BitVec.toNat_ofNat, Nat.mod_eq_of_lt below]
    exact joinLE_bytesBE v.isLt
  · obtain ⟨k_eq, -⟩ := shown_value_lt _ hk
    exact k_eq.trans (length_bytesBE _ _)

end Sys2Proof.Machine
end

section
/-! The serialisers of the command frame (R101 to R104): the word of BCMD, and what QCMD does with and without a
declared length. -/

namespace Sys2Proof.Machine

open Sys2Proof.Claims

/-- The word 5000ppRR (hex) is the format-R word of BCMD RR, pp (R61, R103). -/
theorem encode_bcmd (reg pl : Byte) :
    encode (.bcmd reg pl) = 0x50000000#32 ||| (pl.setWidth 32 <<< 8) ||| reg.setWidth 32 := by
  have hreg := reg.isLt
  have hpl := pl.isLt
  have shifted : (pl.setWidth 32 <<< 8).toNat = 2 ^ 8 * pl.toNat := by
    rw [BitVec.toNat_shiftLeft, BitVec.toNat_setWidth, Nat.shiftLeft_eq]
    omega
  have low : (reg.setWidth 32).toNat = reg.toNat := BitVec.toNat_setWidth_of_le (by decide)
  have opcode_or := Nat.two_pow_add_eq_or_of_lt (i := 16) (b := 2 ^ 8 * pl.toNat) (by omega) 0x5000
  have or_reg := Nat.two_pow_add_eq_or_of_lt (i := 8) hreg (2 ^ 8 * 0x5000 + pl.toNat)
  apply BitVec.eq_of_toNat_eq
  calc (encode (.bcmd reg pl)).toNat = 2 ^ 8 * (2 ^ 8 * 0x5000 + pl.toNat) + reg.toNat := by
        rw [encode, toNat_formR, show (0x5 : Nibble).toNat = 5 from rfl]
        omega
    _ = (2 ^ 16 * 0x5000 ||| 2 ^ 8 * pl.toNat) ||| reg.toNat := by
        rw [or_reg, ← opcode_or, Nat.mul_add, ← Nat.mul_assoc, ← Nat.pow_add]
    _ = _ := by
        rw [BitVec.toNat_or, BitVec.toNat_or, shifted, low]
        rfl

/-- Settles O27, by the format-R word of BCMD and by what BCMD emits. -/
theorem bcmdBuildsTheCommandFrame : Obligations.BcmdBuildsTheCommandFrame := by
  intro reg pl s
  constructor
  · rw [← encode_bcmd]
    exact decodingUndoesEncoding (.bcmd reg pl)
  · rw [exec_bcmd, serialised_eq, commandFrame_eq_buildCmd]

/-- Settles O28: the table of R101 is the machine's. -/
theorem qcmdBuildsTheDeclaredQuery : Obligations.QcmdBuildsTheDeclaredQuery := by
  intro reg k s h
  rw [declaredLength_eq_plen] at h
  rw [exec_qcmd_some s h, serialised_eq, commandFrame_eq_buildCmd]

/-- Settles O29: the table of R101 is the machine's. -/
theorem qcmdOfAnUnknownIdFaults : Obligations.QcmdOfAnUnknownIdFaults := by
  intro reg s h
  rw [declaredLength_eq_plen] at h
  rw [exec_qcmd_none s h, ← afterRaise_eq]
  rfl

end Sys2Proof.Machine
end

section
/-! PFRM that completes (R105 to R110): it does so exactly on a buffer that holds a frame, and the six result registers
give the frame back. -/

namespace Sys2Proof.Machine

open Sys2Proof.Claims

/-- The input buffer holds exactly a frame: head, register pair, the pairs of 0 to 3 magnitude bytes, trailer (R47,
R105). -/
structure State.HoldsFrame (s : State) (head : List Byte) (reg : Byte) (ms tail : List Byte) : Prop where
  head_length : head.length = 4
  tail_length : tail.length = 2
  k_le : ms.length ≤ 3
  ilen_eq : s.ilen.toNat = 8 + 2 * ms.length
  input_eq : s.input s.ilen.toNat = head ++ pack2 reg ++ ms.flatMap pack2 ++ tail

/-- The state after a PFRM that delivers a frame (R110). -/
def State.parsed (s : State) (head : List Byte) (reg : Byte) (ms tail : List Byte) : State :=
  (s.showFrame ⟨head, reg.toNat, joinLE ms, ms.length, tail⟩).complete

/-- PFRM completes on a buffer that holds a frame (R110). -/
theorem State.HoldsFrame.exec_pfrm {s : State} {head ms tail : List Byte} {reg : Byte}
    (h : s.HoldsFrame head reg ms tail) : exec .pfrm s = .next (s.parsed head reg ms tail) := by
  obtain ⟨hh, ht, hk, hl, hs⟩ := h
  obtain ⟨operand, -⟩ := s.inputFrame_parse (by omega) (by omega)
  rw [Machine.exec_pfrm, operand, hs, parse_frame head tail ms reg hh ht hk]
  rfl

/-- PFRM completes on no other buffer (R110). -/
theorem holdsFrame_of_pfrm {s t : State} (h : exec .pfrm s = .next t) (h0 : t.status = 0) :
    ∃ head reg ms tail, s.HoldsFrame head reg ms tail ∧ t = s.parsed head reg ms tail := by
  have no_raise {r : Raised} (e : exec .pfrm s = .next (s.raise r)) : False := by
    obtain rfl := next_inj (e.symm.trans h)
    exact s.raise_status_ne_zero r h0
  rcases exec_pfrm_cases s with ⟨-, e⟩ | ⟨-, e⟩ | ⟨-, -, -,
    ⟨head, ms, tail, reg, hh, ht, hk, hl, hs, e⟩ | ⟨l, b, r, -, -, -, e⟩ | ⟨reg, -, -, e⟩ |
    ⟨reg, l, b, r, -, -, -, -, -, e⟩⟩
  case inr.inr.inl => exact ⟨head, reg, ms, tail, ⟨hh, ht, hk, hl, hs⟩, next_inj (h.symm.trans e)⟩
  all_goals exact (no_raise e).elim

/-- The k low bytes of a value joined from k bytes are these bytes (R44, R113). -/
theorem bytesLE_joinLE (ms : List Byte) : bytesLE ms.length (joinLE ms) = ms := by
  induction ms with
  | nil => rfl
  | cons m ms ih =>
    have hm := m.isLt
    have first : BitVec.ofNat 8 (m.toNat + 256 * joinLE ms) = m := by
      apply BitVec.eq_of_toNat_eq
      rw [BitVec.toNat_ofNat]
      omega
    have rest : (m.toNat + 256 * joinLE ms) / 256 = joinLE ms := by omega
    rw [List.length_cons, bytesLE_succ, joinLE_cons, first, rest, ih]

section
variable {s : State} {head ms tail : List Byte} {reg : Byte}

theorem State.parsed_rreg : (s.parsed head reg ms tail).rreg = reg := by
  simp [State.parsed]

theorem State.parsed_rk (hk : ms.length ≤ 3) : (s.parsed head reg ms tail).rk.toNat = ms.length :=
  (shown_value_lt ms hk).1

/-- RVAL loses nothing of a value of up to three magnitude bytes (R20, R97). -/
theorem State.parsed_rval (hk : ms.length ≤ 3) : (s.parsed head reg ms tail).rval.toNat = joinLE ms := by
  have below : joinLE ms < 2 ^ 24 := (joinLE_lt ms).trans_le (Nat.pow_le_pow_right (by decide) (by omega))
  rw [State.parsed, State.complete_rval, State.showFrame_rval, BitVec.toNat_ofNat, Nat.mod_eq_of_lt below]

/-- The magnitude bytes are the RK low bytes of RVAL, least significant first (R44). -/
theorem State.parsed_magnitude_bytes (hk : ms.length ≤ 3) :
    (List.range (s.parsed head reg ms tail).rk.toNat).map
      (fun j => (s.parsed head reg ms tail).rval.extractLsb' (8 * j) 8) = ms := by
  calc _ = bytesLE (s.parsed head reg ms tail).rk.toNat (s.parsed head reg ms tail).rval.toNat := rfl
    _ = ms := by rw [State.parsed_rk hk, State.parsed_rval hk, bytesLE_joinLE]

/-- RHEAD shows the head, byte 0 in bits 31:24 (R22, R42). -/
theorem State.parsed_head_bytes (hh : head.length = 4) :
    head = [(s.parsed head reg ms tail).rhead.extractLsb' 24 8, (s.parsed head reg ms tail).rhead.extractLsb' 16 8,
      (s.parsed head reg ms tail).rhead.extractLsb' 8 8, (s.parsed head reg ms tail).rhead.extractLsb' 0 8] := by
  obtain ⟨h0, h1, h2, h3, rfl⟩ := List.length_eq_four.mp hh
  have l0 := h0.isLt
  have l1 := h1.isLt
  have l2 := h2.isLt
  have l3 := h3.isLt
  simp only [State.parsed, State.complete_rhead, State.showFrame_rhead, joinBE_four, List.cons.injEq, and_true]
  refine ⟨?_, ?_, ?_, ?_⟩ <;> apply BitVec.eq_of_toNat_eq <;> rw [toNat_field, BitVec.toNat_ofNat] <;> omega

/-- RTAIL shows the trailer, its first byte in bits 15:8 (R23, R42). -/
theorem State.parsed_tail_bytes (ht : tail.length = 2) :
    tail = [(s.parsed head reg ms tail).rtail.extractLsb' 8 8, (s.parsed head reg ms tail).rtail.extractLsb' 0 8] := by
  obtain ⟨t0, t1, rfl⟩ := List.length_eq_two.mp ht
  have l0 := t0.isLt
  have l1 := t1.isLt
  simp only [State.parsed, State.complete_rtail, State.showFrame_rtail, joinBE_two, List.cons.injEq, and_true]
  refine ⟨?_, ?_⟩ <;> apply BitVec.eq_of_toNat_eq <;> rw [toNat_field, BitVec.toNat_ofNat] <;> omega

theorem State.parsed_rflg : (s.parsed head reg ms tail).rflg = frameFlags tail reg ms.length := by
  simp [State.parsed]

theorem State.parsed_tvalidFlag : (s.parsed head reg ms tail).tvalidFlag = true ↔ tail = tailOk := by
  obtain ⟨tvalid_eq, -, -⟩ := frameFlags_fields tail reg ms.length
  rw [State.tvalidFlag, State.parsed_rflg, tvalid_eq, tvalid, beq_iff_eq]

theorem State.parsed_lenokFlag :
    (s.parsed head reg ms tail).lenokFlag = true ↔ declaredLength reg = some ms.length := by
  obtain ⟨-, lenok_eq, -⟩ := frameFlags_fields tail reg ms.length
  rw [State.lenokFlag, State.parsed_rflg, lenok_eq, lenok, beq_iff_eq, declaredLength_eq_plen]

theorem State.parsed_rclsField : (s.parsed head reg ms tail).rclsField = rcls reg := by
  obtain ⟨-, -, rcls_eq⟩ := frameFlags_fields tail reg ms.length
  rw [State.rclsField, State.parsed_rflg, rcls_eq]

/-- A frame is acceptable after PFRM exactly when its trailer is good (R107, R132). -/
theorem State.parsed_acceptable : (s.parsed head reg ms tail).acceptable = true ↔ tail = tailOk := by
  rw [State.acceptable, Bool.and_eq_true, State.parsed_tvalidFlag]
  exact and_iff_right (decide_eq_true rfl)

end

theorem rcls_toNat (reg : Byte) :
    (rcls reg).toNat = if reg.toNat ≤ 48 then 0 else if reg.toNat ≤ 63 then 1 else 2 := by
  revert reg; decide

/-- Settles O30: the buffer holds a frame, and the spec's registers are those that the machine shows. -/
theorem pfrmDeliversTheFrame : Obligations.PfrmDeliversTheFrame := by
  intro s h0 h1 h2 h3 reg t0 t1 ms hk hl hs
  rw [buffered_eq_input, pair_eq] at hs
  have holds : s.HoldsFrame [h0, h1, h2, h3] reg ms [t0, t1] := ⟨rfl, rfl, hk, hl, hs⟩
  rw [holds.exec_pfrm]
  simp only [State.parsed, State.showFrame, State.complete, joinBE_four, joinBE_two, littleEndian_eq_joinLE,
    flags_eq_frameFlags, BitVec.ofNat_toNat, BitVec.setWidth_eq]

/-- Settles O36: the last two bytes of the buffer are the frame's trailer. -/
theorem tvalidIsTheOrderedTrailer : Obligations.TvalidIsTheOrderedTrailer := by
  intro s t h h0
  obtain ⟨head, reg, ms, tail, holds, rfl⟩ := holdsFrame_of_pfrm h h0
  rw [State.parsed_tvalidFlag, buffered_eq_input, holds.input_eq]
  constructor
  · rintro rfl
    exact ⟨_, rfl⟩
  · rintro ⟨body, e⟩
    exact (List.append_inj' e holds.tail_length).2

/-- Settles O37, by the fields of RFLG. -/
theorem rclsAndLenokDescribeTheRegister : Obligations.RclsAndLenokDescribeTheRegister := by
  intro s t h h0
  obtain ⟨head, reg, ms, tail, holds, rfl⟩ := holdsFrame_of_pfrm h h0
  rw [State.parsed_rclsField, State.parsed_lenokFlag, State.parsed_rreg, State.parsed_rk holds.k_le]
  exact ⟨rcls_toNat reg, Iff.rfl⟩

/-- Settles O39: each part of the frame is read back from its register. -/
theorem parsedBufferIsRebuiltFromTheResult : Obligations.ParsedBufferIsRebuiltFromTheResult := by
  intro s t h h0
  obtain ⟨head, reg, ms, tail, holds, rfl⟩ := holdsFrame_of_pfrm h h0
  rw [State.parsed_magnitude_bytes holds.k_le, ← State.parsed_head_bytes holds.head_length,
    ← State.parsed_tail_bytes holds.tail_length, State.parsed_rreg, pair_eq]
  exact holds.input_eq

/-- Settles O40: a response is a frame of the k low bytes of its value, which join to the value. -/
theorem responseFramesParseToWhatTheyCarry : Obligations.ResponseFramesParseToWhatTheyCarry := by
  intro s head reg val k hh hk hv hl hs
  have len := length_bytesLE k val
  have hk' : (bytesLE k val).length ≤ 3 := len.trans_le hk
  have holds : s.HoldsFrame head reg (bytesLE k val) tailOk := ⟨hh, rfl, hk', by rw [hl, len], hs⟩
  refine ⟨_, holds.exec_pfrm, rfl, State.parsed_rreg, ?_, ?_, rfl, State.parsed_tvalidFlag.mpr rfl,
    State.parsed_head_bytes hh⟩
  · rw [State.parsed_rval hk', joinLE_bytesLE, Nat.mod_eq_of_lt hv]
  · rw [State.parsed_rk hk', len]

/-- Settles O41: a command frame is a frame with no magnitude byte, whose trailer is a cipher pair. -/
theorem commandFramesAreNeverValidResponses : Obligations.CommandFramesAreNeverValidResponses := by
  intro reg pl s t u ht hu hs
  obtain rfl := next_inj ((exec_bcmd reg pl s).symm.trans ht)
  have out : (s.emit (buildCmd reg pl)).obuf.toList = buildCmd reg pl := by
    have e := s.take_olen_emit (out := buildCmd reg pl) (by simp)
    rwa [s.emit_olen_toNat (by simp), length_buildCmd, List.take_of_length_le (by simp)] at e
  have bytes : buffered u = cmdHeadBytes ++ pack2 reg ++ [] ++ pack2 pl := by
    rw [hs, State.complete_obuf, out, buildCmd_eq, List.append_nil]
  have holds : u.HoldsFrame cmdHeadBytes reg [] (pack2 pl) := ⟨rfl, rfl, by decide, by rw [hu]; rfl, bytes⟩
  have bad_trailer : pack2 pl ≠ tailOk := fun e => sbox_ne_trailer _ (List.cons.inj e).1
  exact ⟨_, holds.exec_pfrm, rfl, rfl, State.parsed_rreg, rfl, rfl,
    Bool.eq_false_iff.mpr (mt State.parsed_tvalidFlag.mp bad_trailer)⟩

/-- Settles O55: PFRM completes exactly on frames, and TVALID is their trailer's. -/
theorem acceptableFramesAreTheWellFormedOnes : Obligations.AcceptableFramesAreTheWellFormedOnes := by
  intro s t h
  rw [buffered_eq_input, pair_eq]
  constructor
  · intro acc
    have h0 : t.status = 0 := by
      rw [State.acceptable, Bool.and_eq_true] at acc
      exact of_decide_eq_true acc.1
    obtain ⟨head, reg, ms, tail, holds, rfl⟩ := holdsFrame_of_pfrm h h0
    obtain rfl := State.parsed_acceptable.mp acc
    exact ⟨head, ms, reg, holds.head_length, holds.k_le, holds.ilen_eq, holds.input_eq⟩
  · rintro ⟨head, ms, reg, hh, hk, hl, hs⟩
    have holds : s.HoldsFrame head reg ms tailOk := ⟨hh, rfl, hk, hl, hs⟩
    obtain rfl := next_inj (holds.exec_pfrm.symm.trans h)
    exact State.parsed_acceptable.mpr rfl

end Sys2Proof.Machine
end

section
/-! PFRM that raises (R110, R158): the fields of the buffer as dec_int sees them, and the fault of the first field that
has one. -/

namespace Sys2Proof.Machine

open Sys2Proof.Claims

/-- A field of the buffer around its byte at index i. -/
theorem State.slice_input_eq_append (s : State) {a b n : Nat} (i : Fin 14) (ha : a ≤ i.val) (hi : i.val < b)
    (hb : b ≤ n) :
    slice (s.input n) a b = slice (s.input n) a i.val ++ s.ibuf[i] :: slice (s.input n) (i.val + 1) b := by
  have hlt : i.val < (s.input n).length := by
    rw [State.input, List.length_take, Vector.length_toList]
    omega
  have byte : (s.input n)[i.val] = s.ibuf[i] := by simp [State.input]
  have around : (s.input n).drop i.val = s.ibuf[i] :: (s.input n).drop (i.val + 1) := by
    rw [List.drop_eq_getElem_cons hlt, byte]
  simp only [slice]
  rw [show b - a = (i.val - a) + ((b - (i.val + 1)) + 1) by omega, List.take_add, List.drop_drop,
    show a + (i.val - a) = i.val by omega, around, List.take_succ_cons]

/-- A byte of a field stands in the buffer within the field's bounds. -/
theorem State.mem_slice_input {s : State} {a b n : Nat} {c : Byte} (h : c ∈ slice (s.input n) a b) :
    ∃ j : Fin 14, a ≤ j.val ∧ j.val < b ∧ c = s.ibuf[j] := by
  obtain ⟨j, hj, rfl⟩ := List.mem_iff_getElem.mp h
  have bounds : j < b - a ∧ a + j < 14 := by
    simp only [length_slice, State.input, List.length_take, Vector.length_toList] at hj
    omega
  exact ⟨⟨a + j, bounds.2⟩, Nat.le_add_right a j, Nat.add_lt_of_lt_sub' bounds.1, by simp [slice, State.input]⟩

theorem State.length_slice_input (s : State) {a b n : Nat} (hb : b ≤ n) (h14 : n ≤ 14) :
    (slice (s.input n) a b).length = b - a := by
  rw [length_slice, s.length_input h14]
  omega

/-- dec_int of a field of even length whose first illegal byte stands at index i (R92, R158). -/
theorem State.decInt_field_illegal (s : State) {a b n : Nat} (i : Fin 14) (hb : b ≤ n) (h14 : n ≤ 14)
    (even : (b - a) % 2 = 0) (ha : a ≤ i.val) (hi : i.val < b) (illegal : ¬ legal s.ibuf[i])
    (before : ∀ j : Fin 14, a ≤ j.val → j.val < i.val → legal s.ibuf[j]) :
    decInt (slice (s.input n) a b) a = .error (raised .invalidCipherByte i.val s.ibuf[i]) := by
  have split_at := s.slice_input_eq_append i ha hi hb
  have legal_before : ∀ c ∈ slice (s.input n) a i.val, ∃ n, c = sbox n := by
    intro c hc
    obtain ⟨j, hja, hji, rfl⟩ := State.mem_slice_input hc
    exact legal_iff.mp (before j hja hji)
  rcases decInt_cases (slice (s.input n) a b) a with ⟨odd, -⟩ | ⟨ms, hs, -⟩ | ⟨l, c, r, hs, -, hl, hc, e⟩
  · rw [s.length_slice_input hb h14] at odd
    omega
  · have mem : s.ibuf[i] ∈ ms.flatMap pack2 := by rw [← hs, split_at]; simp
    exact absurd (legal_iff.mpr (flatMap_pack2_legal mem)) illegal
  · obtain ⟨rfl, rfl⟩ :=
      first_illegal_unique (hs.symm.trans split_at) hl legal_before hc (not_legal_iff.mp illegal)
    rw [e, s.length_slice_input (by omega) h14, Nat.add_sub_cancel' ha]

/-- dec_int of a field of even length and cipher bytes only (R92). -/
theorem State.decInt_field_legal (s : State) {a b n : Nat} (hb : b ≤ n) (h14 : n ≤ 14) (even : (b - a) % 2 = 0)
    (all : ∀ j : Fin 14, a ≤ j.val → j.val < b → legal s.ibuf[j]) :
    ∃ r, decInt (slice (s.input n) a b) a = .ok r := by
  rcases decInt_cases (slice (s.input n) a b) a with ⟨odd, -⟩ | ⟨ms, -, e⟩ | ⟨l, c, r, hs, -, -, hc, -⟩
  · rw [s.length_slice_input hb h14] at odd
    omega
  · exact ⟨_, e⟩
  · obtain ⟨j, hja, hjb, rfl⟩ := State.mem_slice_input (s := s) (n := n) (a := a) (b := b) (c := c) (by simp [hs])
    exact absurd (all j hja hjb) (not_legal_iff.mpr hc)

/-- The register field comes first: its fault is the parser's (R105). -/
theorem parse_register_error {raw : List Byte} {e : Raised} (h8 : 8 ≤ raw.length) (h14 : raw.length ≤ 14)
    (h : decInt (slice raw 4 6) 4 = .error e) : parse raw = .error e := by
  have not_short : ¬ raw.length < minLen := by simp only [minLen]; omega
  have not_long : ¬ lMax < raw.length := by simp only [lMax, minLen, kMax]; omega
  rw [parse, if_neg not_short, if_neg not_long, h]

/-- Behind a register field without a fault the value field's fault is the parser's (R105). -/
theorem parse_value_error {raw : List Byte} {e : Raised} {r : Nat × Nat} (h8 : 8 ≤ raw.length)
    (h14 : raw.length ≤ 14) (hr : decInt (slice raw 4 6) 4 = .ok r)
    (h : decInt (slice raw 6 (raw.length - 2)) 6 = .error e) : parse raw = .error e := by
  have not_short : ¬ raw.length < minLen := by simp only [minLen]; omega
  have not_long : ¬ lMax < raw.length := by simp only [lMax, minLen, kMax]; omega
  simp only [parse, if_neg not_short, if_neg not_long, hr, h]

section
variable {s : State} {e : Raised} (h8 : 8 ≤ s.ilen.toNat) (h14 : s.ilen.toNat ≤ 14)
include h8 h14

/-- PFRM raises the parser's fault (R110). -/
theorem exec_pfrm_parse_error (h : parse (s.input s.ilen.toNat) = .error e) :
    exec .pfrm s = .next (s.raise e) := by
  obtain ⟨operand, -⟩ := s.inputFrame_parse h8 h14
  rw [exec_pfrm, operand, h]
  rfl

theorem exec_pfrm_register_error (h : decInt (slice (s.input s.ilen.toNat) 4 6) 4 = .error e) :
    exec .pfrm s = .next (s.raise e) := by
  have len := s.length_input h14
  exact exec_pfrm_parse_error h8 h14 (parse_register_error (h8.trans_eq len.symm) (len.trans_le h14) h)

theorem exec_pfrm_value_error (register : ∀ j : Fin 14, 4 ≤ j.val → j.val < 6 → legal s.ibuf[j])
    (h : decInt (slice (s.input s.ilen.toNat) 6 (s.ilen.toNat - 2)) 6 = .error e) :
    exec .pfrm s = .next (s.raise e) := by
  have len := s.length_input h14
  obtain ⟨r, hr⟩ := s.decInt_field_legal (n := s.ilen.toNat) (by omega) h14 (by decide) register
  refine exec_pfrm_parse_error h8 h14 (parse_value_error (h8.trans_eq len.symm) (len.trans_le h14) hr ?_)
  rw [len]
  exact h

end

/-- Settles O32: above 14 bytes only TooLong is tested. -/
theorem pfrmOfALongBufferFaults : Obligations.PfrmOfALongBufferFaults := by
  intro s h
  rw [exec_pfrm, s.inputFrame_long h]
  exact congrArg _ (raise_ilen s .tooLong)

/-- A raise of InvalidCipherByte, as R159 writes it. -/
theorem raise_invalidCipherByte (s : State) (i : Nat) (b : Byte) :
    s.raise (raised .invalidCipherByte i b) = afterRaise s 1 (BitVec.ofNat 8 i) b :=
  (afterRaise_eq s (raised .invalidCipherByte i b)).symm

/-- Settles O33: the register field is tested before the value field, its lower index first. -/
theorem pfrmTestsTheRegisterBytesBeforeParity : Obligations.PfrmTestsTheRegisterBytesBeforeParity := by
  intro s h8 h14
  have fault (i : Fin 14) (h4 : 4 ≤ i.val) (h6 : i.val < 6) (illegal : ¬ legal s.ibuf[i])
      (before : ∀ j : Fin 14, 4 ≤ j.val → j.val < i.val → legal s.ibuf[j]) :
      exec .pfrm s = .next (afterRaise s 1 (BitVec.ofNat 8 i.val) s.ibuf[i]) := by
    rw [← raise_invalidCipherByte]
    exact exec_pfrm_register_error h8 h14
      (s.decInt_field_illegal i (by omega) h14 (by decide) h4 h6 illegal before)
  constructor
  · intro illegal
    exact fault 4 (by decide) (by decide) illegal fun j hj hj' => absurd hj (Nat.not_le_of_lt hj')
  · intro legal4 illegal
    refine fault 5 (by decide) (by decide) illegal fun j hj hj' => ?_
    obtain rfl : j = 4 := Fin.ext (Nat.le_antisymm (Nat.le_of_lt_succ hj') hj)
    exact legal4

/-- Settles O34: the register field has no fault, and the value field's parity is tested before its bytes. -/
theorem pfrmOfAnOddBufferFaults : Obligations.PfrmOfAnOddBufferFaults := by
  intro s h8 h14 odd legal4 legal5
  have register : ∀ j : Fin 14, 4 ≤ j.val → j.val < 6 → legal s.ibuf[j] := by
    intro j hj hj'
    obtain rfl | rfl : j = 4 ∨ j = 5 := by omega
    · exact legal4
    · exact legal5
  have len := s.length_slice_input (a := 6) (b := s.ilen.toNat - 2) (by omega) h14
  have parity := decInt_odd (s := slice (s.input s.ilen.toNat) 6 (s.ilen.toNat - 2)) 6 (by omega)
  have idx : BitVec.ofNat 8 (s.ilen.toNat - 2 - 6) = s.ilen - 8 := by bv_omega
  rw [exec_pfrm_value_error h8 h14 register parity, len, ← afterRaise_eq, raised, idx]
  rfl

/-- Settles O35: the register field has no fault, and the value field's first illegal byte is the one that PFRM
names. -/
theorem pfrmNamesTheFirstIllegalValueByte : Obligations.PfrmNamesTheFirstIllegalValueByte := by
  intro s i h8 h14 even h6 hi illegal before
  rw [← raise_invalidCipherByte]
  exact exec_pfrm_value_error h8 h14 (fun j hj hj' => before j hj (by omega))
    (s.decInt_field_illegal i (by omega) h14 (by omega) h6 (by omega) illegal
      fun j hj hj' => before j (by omega) hj')

end Sys2Proof.Machine
end

section
/-! The buffer and control operations (R120 to R122): what PUSH, CLRI and CLRF answer, and what clears the fault log. -/

namespace Sys2Proof.Machine

/-- PUSH advances ILEN, which stays at 255 once it is there (R16, R120). -/
theorem State.pushByte_ilen_eq_ite (s : State) (b : Byte) :
    (s.pushByte b).ilen = if s.ilen = 255 then 255 else s.ilen + 1 := by
  apply BitVec.eq_of_toNat_eq
  rw [State.pushByte_ilen_toNat]
  split
  · next full => rw [full]; rfl
  · next room => bv_omega

/-- PUSH writes no register but IBUF and ILEN (R120). -/
theorem State.pushByte_eq (s : State) (b : Byte) :
    s.pushByte b = { s with ibuf := (s.pushByte b).ibuf, ilen := (s.pushByte b).ilen } := rfl

/-- PUSH into a buffer with room stores its byte at the old ILEN (R26, R120). -/
theorem State.pushByte_of_lt (s : State) (b : Byte) (h : s.ilen.toNat < 14) :
    s.pushByte b = { s with ibuf := s.ibuf.set s.ilen.toNat b h, ilen := s.ilen + 1 } := by
  have stored : (s.pushByte b).ibuf = s.ibuf.set s.ilen.toNat b h := by
    rw [State.pushByte_ibuf, if_pos (show s.ilen.toNat < lMax from h)]
    exact Vector.ext fun j hj => by rw [Vector.getElem_setIfInBounds hj, Vector.getElem_set]
  have not_full : s.ilen ≠ 255 := by
    intro full
    simp [full] at h
  rw [State.pushByte_eq, stored, State.pushByte_ilen_eq_ite, if_neg not_full]

/-- PUSH into a full buffer only counts (R16, R120). -/
theorem State.pushByte_of_le (s : State) (b : Byte) (h : 14 ≤ s.ilen.toNat) :
    s.pushByte b = { s with ilen := if s.ilen = 255 then 255 else s.ilen + 1 } := by
  have kept : (s.pushByte b).ibuf = s.ibuf := by
    rw [State.pushByte_ibuf, if_neg (show ¬ s.ilen.toNat < lMax from Nat.not_lt.mpr h)]
  rw [State.pushByte_eq, kept, State.pushByte_ilen_eq_ite]

/-- Settles O43: the byte is stored at the old ILEN, which is not yet 255. -/
theorem pushStoresAtTheEndOfTheBuffer : Obligations.PushStoresAtTheEndOfTheBuffer := by
  intro b s h
  rw [exec_push, State.pushByte_of_lt s b h]
  rfl

/-- Settles O44: the buffer is kept, and ILEN saturates. -/
theorem pushBeyondTheCapacityOnlyCounts : Obligations.PushBeyondTheCapacityOnlyCounts := by
  intro b s h
  rw [exec_push, State.pushByte_of_le s b h]
  rfl

/-- Settles O45: the word is the encoding of CLRI, which writes ILEN alone. -/
theorem clriEmptiesTheBuffer : Obligations.ClriEmptiesTheBuffer :=
  ⟨decodingUndoesEncoding .clri, exec_clri⟩

/-- Settles O46: the word is the encoding of CLRF, which writes FLOG alone. -/
theorem clrfClearsTheLog : Obligations.ClrfClearsTheLog :=
  ⟨decodingUndoesEncoding .clrf, exec_clrf⟩

/-- Fault entry sets a bit of FLOG and clears none (R15, R159). -/
theorem State.raise_keeps_log {s : State} {c : Nat} (r : Raised) (logged : s.flog.getLsbD c = true) :
    (s.raise r).flog.getLsbD c = true := by
  rw [State.raise_flog, BitVec.getLsbD_or, logged, Bool.true_or]

/-- No operation but CLRF clears a bit of FLOG, whether it completes or raises (R15, R122). -/
theorem exec_keeps_log {i : Instr} {s t : State} {c : Nat} (h : exec i s = .next t) (other : i ≠ .clrf)
    (logged : s.flog.getLsbD c = true) : t.flog.getLsbD c = true := by
  rcases exec_next_cases h with ⟨u, hu, rfl⟩ | ⟨r, -, rfl⟩
  · rwa [State.complete_flog, hu.flog, if_neg other]
  · exact State.raise_keeps_log r logged

/-- The events that clear a bit of FLOG: a reset and the word of CLRF (R15, R122). -/
theorem step_clears_or_keeps_log {s t : State} {c : Nat} (h : step s = .next t) (logged : s.flog.getLsbD c = true) :
    (∃ rest, s.pending = .reset :: rest ∨ s.pending = .command (encode .clrf) :: rest) ∨
      t.flog.getLsbD c = true := by
  rcases step_cases s with ⟨-, e⟩ | ⟨rest, reset, -⟩ | ⟨n, rest, -, e⟩ | ⟨cw, i, rest, command, hi, e⟩ |
    ⟨cw, _, rest, -, -, e⟩
  · exact .inr (next_inj (e.symm.trans h) ▸ logged)
  · exact .inl ⟨rest, .inl reset⟩
  · exact .inr (next_inj (e.symm.trans h) ▸ logged)
  · by_cases clrf : i = .clrf
    · rw [← legalWordsAreEncodings cw i hi, clrf] at command
      exact .inl ⟨rest, .inr command⟩
    · exact .inr (exec_keeps_log (e.symm.trans h) clrf logged)
  · exact .inr (next_inj (e.symm.trans h) ▸ State.raise_keeps_log _ logged)

/-- Settles O59, by how an operation ends and by the cases of a step. -/
theorem onlyClrfAndResetClearTheLog : Obligations.OnlyClrfAndResetClearTheLog := by
  constructor
  · intro i s t c h other logged
    exact exec_keeps_log h other logged
  · intro s t c h logged cleared
    exact (step_clears_or_keeps_log h logged).resolve_right (by simp [cleared])

end Sys2Proof.Machine
end

section
/-! What PFRM reads (R110, R112, R141): ILEN and the bytes below it, and nothing else of the state. -/

namespace Sys2Proof.Machine

open Sys2Proof.Claims

/-- PFRM's operand is a function of ILEN and the buffered bytes (R110). -/
theorem State.inputFrame_congr {s u : State} (ilen_eq : s.ilen = u.ilen) (buffer_eq : buffered s = buffered u) :
    s.inputFrame = u.inputFrame := by
  rw [buffered_eq_input, buffered_eq_input] at buffer_eq
  rw [State.inputFrame, State.inputFrame, buffer_eq, ilen_eq]

/-- Settles O42: both states give PFRM one operand, and from it the same frame is delivered or the same fault raised. -/
theorem pfrmDependsOnTheBufferAlone : Obligations.PfrmDependsOnTheBufferAlone := by
  intro s u t x ilen_eq buffer_eq hs hu
  have operand_eq := State.inputFrame_congr ilen_eq buffer_eq
  rw [exec_pfrm] at hs hu
  rw [← operand_eq] at hu
  cases operand : s.inputFrame with
  | ok frame =>
    rw [operand] at hs hu
    obtain rfl := next_inj hs
    obtain rfl := next_inj hu
    exact ⟨rfl, rfl, fun _ => ⟨rfl, rfl, rfl, rfl, rfl, rfl⟩⟩
  | error r =>
    rw [operand] at hs hu
    obtain rfl := next_inj hs
    obtain rfl := next_inj hu
    exact ⟨rfl, rfl, fun completes => (s.raise_status_ne_zero r completes).elim⟩

end Sys2Proof.Machine
end

section
/-! Faults and steps (R150 to R165): every step answers a next state, and a fault is a raise and nothing else. -/

namespace Sys2Proof.Machine

open Sys2Proof.Claims

/-- The step on a command word: the operation it selects, or IllegalCommand (R60, R64). -/
theorem step_command_word {s : State} {cw : Word} {rest : List HostAction} (h : s.pending = .command cw :: rest) :
    (∃ i, decode cw = .ok i ∧ step s = exec i (s.take rest)) ∨
    (∃ e, decode cw = .error e ∧ step s = .next ((s.take rest).illegalCommand cw)) := by
  cases hd : decode cw with
  | ok i => exact .inl ⟨i, rfl, by simp [step, h, hd]⟩
  | error e => exact .inr ⟨e, rfl, by simp [step, h, hd]⟩

/-- IllegalCommand, as R156 and R159 write it. -/
theorem State.illegalCommand_eq (s : State) (cw : Word) :
    s.illegalCommand cw = afterRaise s 6 0 (BitVec.ofNat 8 (cw.toNat / 2 ^ 24)) := by
  have top_byte : cw.extractLsb' 24 8 = BitVec.ofNat 8 (cw.toNat / 2 ^ 24) := by
    apply BitVec.eq_of_toNat_eq
    rw [toNat_field, BitVec.toNat_ofNat]
  rw [State.illegalCommand, ← afterRaise_eq, top_byte]
  rfl

theorem faultCode_pos (kind : FaultKind) : 1 ≤ faultCode kind := by
  cases kind <;> decide

/-- An operation that leaves a code in STATUS has raised a fault of its own (R13, R159). -/
theorem exec_faults {i : Instr} {s t : State} (h : exec i s = .next t) (fault : t.status ≠ 0) :
    ∃ r, MayRaise i r ∧ t = s.raise r := by
  rcases exec_next_cases h with ⟨u, -, rfl⟩ | own
  · exact absurd u.complete_status fault
  · exact own

/-- Settles O48: what faults is a raise of the operation, or, on a word that selects none, of IllegalCommand. -/
theorem faultsChangeOnlyTheFaultRegisters : Obligations.FaultsChangeOnlyTheFaultRegisters := by
  have operation : ∀ (i : Instr) (s t : State), exec i s = .next t → t.status ≠ 0 →
      ∃ (code : Nat) (idx byte : Byte), 1 ≤ code ∧ code ≤ 5 ∧ t = afterRaise s code idx byte := by
    intro i s t h fault
    obtain ⟨r, hr, rfl⟩ := exec_faults h fault
    exact ⟨faultCode r.kind, r.idx, r.byte, faultCode_pos r.kind, hr.code_le_five, (afterRaise_eq s r).symm⟩
  refine ⟨operation, ?_⟩
  intro s t cw rest pending h fault
  rcases step_command_word pending with ⟨i, -, e⟩ | ⟨_, -, e⟩
  · obtain ⟨code, idx, byte, pos, le_five, entry⟩ := operation i _ t (e.symm.trans h) fault
    exact ⟨code, idx, byte, pos, Nat.le_succ_of_le le_five, entry⟩
  · exact ⟨6, 0, _, by decide, le_rfl, (next_inj (h.symm.trans e)).trans (State.illegalCommand_eq _ cw)⟩

/-- Settles O49, by how the operation ends. -/
theorem operationsRaiseOnlyTheirOwnFaults : Obligations.OperationsRaiseOnlyTheirOwnFaults := by
  intro i s t h
  rcases exec_next_cases h with ⟨u, -, rfl⟩ | ⟨r, ⟨own, -⟩, rfl⟩
  · exact .inl rfl
  · rw [State.raise_status_toNat]
    exact .inr own

/-- Settles O7: an illegal word does not decode. -/
theorem illegalWordRaisesIllegalCommand : Obligations.IllegalWordRaisesIllegalCommand := by
  intro s cw rest pending illegal
  obtain ⟨e, rejected⟩ := (illegalWordsAreThoseOfNoRow cw).1.mpr illegal
  rcases step_command_word pending with ⟨i, decoded, -⟩ | ⟨_, -, answer⟩
  · cases rejected.symm.trans decoded
  · exact answer.trans (congrArg _ (State.illegalCommand_eq _ cw))

/-- Settles O31: below 8 bytes only the length is tested. -/
theorem pfrmOfAShortBufferFaults : Obligations.PfrmOfAShortBufferFaults := by
  intro s h
  rw [exec_pfrm, s.inputFrame_short h]
  exact congrArg _ (raise_ilen s .frameTooShort)

/-- Settles O56, by the cases of a step: only an operation could stop, and none does. -/
theorem everyStepAnswersANextState : Obligations.EveryStepAnswersANextState := by
  intro s
  rcases step_cases s with ⟨-, e⟩ | ⟨_, -, e⟩ | ⟨_, _, -, e⟩ | ⟨_, i, rest, -, -, e⟩ | ⟨_, _, _, -, -, e⟩
  · exact ⟨_, e⟩
  · exact ⟨_, e⟩
  · exact ⟨_, e⟩
  · rw [e]
    exact exec_answers_next i (s.take rest)
  · exact ⟨_, e⟩

/-- Settles O12: with an empty list of host actions a step is the idle step. -/
theorem idleBlockKeepsItsState : Obligations.IdleBlockKeepsItsState := by
  intro s idle
  rw [step, idle]

end Sys2Proof.Machine
end

section
/-! Reset (R170, R171): what the event clears, and what the operations make of the state after it. -/

namespace Sys2Proof.Machine

open Sys2Proof.Claims

theorem step_reset {s : State} {rest : List HostAction} (h : s.pending = .reset :: rest) :
    step s = .next (s.take rest).assertReset := by
  simp [step, h]

/-- Settles O9: the step is the reset event, which writes each of the named registers. -/
theorem resetActionClearsTheControlRegisters : Obligations.ResetActionClearsTheControlRegisters := by
  intro s rest pending
  exact ⟨_, step_reset pending, rfl, rfl, rfl, rfl, rfl, rfl, rfl, rfl, rfl⟩

/-- DECI of an empty buffer delivers the integer of no magnitude bytes (R92, R171). -/
theorem exec_deci_empty {s : State} (empty : s.ilen = 0) :
    exec .deci s = .next { s with rval := 0, rk := 0, status := 0, finfo := 0 } := by
  have no_bytes : buffered s = [] := by simp [buffered, empty]
  exact deciReadsTheFirstPairAsLeastSignificant s [] (by decide) (by simp [empty]) no_bytes

/-- PFRM of an empty buffer is too short by all of its bytes (R152, R171). -/
theorem exec_pfrm_empty {s : State} (empty : s.ilen = 0) : exec .pfrm s = .next (afterRaise s 2 0 0) := by
  have short := pfrmOfAShortBufferFaults s (by simp [empty])
  rwa [empty] at short

/-- Settles O11: the reset event leaves ILEN 0, and DECI and PFRM find an empty buffer. -/
theorem firstDecodesAfterReset : Obligations.FirstDecodesAfterReset := by
  intro s t rest pending ht
  obtain rfl := next_inj ((step_reset pending).symm.trans ht)
  have empty : (s.take rest).assertReset.ilen = 0 := rfl
  have no_frame : (s.take rest).assertReset.tvalidFlag = false := BitVec.getElem_zero _
  exact ⟨empty, rfl, no_frame, rfl, rfl, exec_deci_empty empty, exec_pfrm_empty empty,
    fun i => exec_answers_next i _⟩

end Sys2Proof.Machine
end

section
/-! The two activities that share the block (R176): a serialiser does the same to every state, a reader or loader the
same to every state with the same buffer, and what the two do commutes but for STATUS and FINFO. -/

namespace Sys2Proof.Machine

open Sys2Proof.Claims

/-- What ENCN, ENCI, BCMD or QCMD does to a state. -/
inductive SerialiserEffect : (State → State) → Prop
  | output (out : List Byte) : SerialiserEffect fun s => (s.emit out).complete
  | fault (r : Raised) : SerialiserEffect fun s => s.raise r

/-- What DECB, DECI, PFRM, PUSH or CLRI does to a state. -/
inductive ReaderEffect : (State → State) → Prop
  | nibble (n : Nibble) : ReaderEffect fun s => (s.showNibble n).complete
  | integer (val k : Nat) : ReaderEffect fun s => (s.showInteger val k).complete
  | frame (f : Frame) : ReaderEffect fun s => (s.showFrame f).complete
  | input (b : Byte) : ReaderEffect fun s => (s.pushByte b).complete
  | noInput : ReaderEffect fun s => s.emptyInput.complete
  | fault (r : Raised) : ReaderEffect fun s => s.raise r

theorem exec_serialiser_effect {i : Instr} (hi : serialiser i) :
    ∃ F, SerialiserEffect F ∧ ∀ s, exec i s = .next (F s) := by
  have mnemonic : (∃ n, i = .encn n) ∨ (∃ v, i = .enci v) ∨ (∃ r p, i = .bcmd r p) ∨ ∃ r, i = .qcmd r := by
    cases i <;> simp [serialiser] at hi ⊢
  rcases exec_serialiser_cases mnemonic with ⟨out, e⟩ | ⟨reg, -, e⟩
  · exact ⟨_, .output out, e⟩
  · exact ⟨_, .fault _, e⟩

/-- No serialiser touches the input buffer (R31). -/
theorem SerialiserEffect.keeps_input {F : State → State} (hF : SerialiserEffect F) (s : State) :
    (F s).ilen = s.ilen ∧ buffered (F s) = buffered s := by
  cases hF <;> exact ⟨rfl, rfl⟩

/-- DECI's operand is a function of ILEN and the buffered bytes (R95). -/
theorem State.inputInteger_congr {s u : State} (ilen_eq : s.ilen = u.ilen) (buffer_eq : buffered s = buffered u) :
    s.inputInteger = u.inputInteger := by
  rw [buffered_eq_input, buffered_eq_input] at buffer_eq
  rw [State.inputInteger, State.inputInteger, buffer_eq, ilen_eq]

/-- An operation that writes a result computed from its operand, or raises: one effect for each answer. -/
theorem readerEffect_of_operand {α : Type} {put : α → State → State}
    (writes : ∀ x, ReaderEffect fun s => (put x s).complete) (operand : Except Raised α) :
    ∃ G, ReaderEffect G ∧ ∀ u, State.commit u (operand.map fun x => put x u) = .next (G u) := by
  cases operand with
  | ok x => exact ⟨_, writes x, fun _ => rfl⟩
  | error r => exact ⟨_, .fault r, fun _ => rfl⟩

/-- A reader or loader does one thing to all states with the buffer of s (R110, R141). -/
theorem exec_reader_effect {j : Instr} (hj : readerOrLoader j) (s : State) :
    ∃ G, ReaderEffect G ∧ ∀ u, u.ilen = s.ilen → buffered u = buffered s → exec j u = .next (G u) := by
  cases j with
  | decb b =>
    obtain ⟨G, hG, e⟩ := readerEffect_of_operand .nibble (dec b 0)
    exact ⟨G, hG, fun u _ _ => e u⟩
  | deci =>
    obtain ⟨G, hG, e⟩ := readerEffect_of_operand (fun x => .integer x.1 x.2) s.inputInteger
    exact ⟨G, hG, fun u hl hb => by rw [exec_deci, State.inputInteger_congr hl hb]; exact e u⟩
  | pfrm =>
    obtain ⟨G, hG, e⟩ := readerEffect_of_operand .frame s.inputFrame
    exact ⟨G, hG, fun u hl hb => by rw [exec_pfrm, State.inputFrame_congr hl hb]; exact e u⟩
  | push b => exact ⟨_, .input b, fun u _ _ => exec_push b u⟩
  | clri => exact ⟨_, .noInput, fun u _ _ => exec_clri u⟩
  | encn | enci | bcmd | qcmd | clrf => exact hj.elim

/-- States that a completion makes equal differ in STATUS and FINFO alone (R13, R14). -/
theorem agreeButInfo_of_complete_eq {s t : State} (h : s.complete = t.complete) : agreeButInfo s t := by
  have agree : agreeButInfo s.complete t.complete := by simp [h, agreeButInfo]
  exact agree

theorem State.raise_complete_comm (s : State) (q r : Raised) :
    ((s.raise q).raise r).complete = ((s.raise r).raise q).complete := by
  simp only [State.raise, State.complete, State.mk.injEq, true_and, and_true]
  ac_rfl

/-- The two write different registers, but for STATUS, FINFO and, when both fault, FLOG, where the bits add up (R15). -/
theorem SerialiserEffect.comm {F G : State → State} (hF : SerialiserEffect F) (hG : ReaderEffect G) (s : State) :
    (G (F s)).complete = (F (G s)).complete := by
  cases hF with
  | output out => cases hG <;> rfl
  | fault q =>
    cases hG with
    | fault r => exact s.raise_complete_comm q r
    | nibble | integer | frame | input | noInput => rfl

/-- Settles O54: the reader finds the same buffer before and after the serialiser, and their effects commute. -/
theorem serialisersAndDecodersCommute : Obligations.SerialisersAndDecodersCommute := by
  intro i j s a b c d hi hj ha hb hc hd
  obtain ⟨F, hF, run_i⟩ := exec_serialiser_effect hi
  obtain ⟨G, hG, run_j⟩ := exec_reader_effect hj s
  obtain ⟨ilen_eq, buffer_eq⟩ := hF.keeps_input s
  obtain rfl := next_inj ((run_i s).symm.trans ha)
  obtain rfl := next_inj ((run_j (F s) ilen_eq buffer_eq).symm.trans hb)
  obtain rfl := next_inj ((run_j s rfl rfl).symm.trans hc)
  obtain rfl := next_inj ((run_i (G s)).symm.trans hd)
  exact agreeButInfo_of_complete_eq (hF.comm hG s)

end Sys2Proof.Machine
end

section
/-! The host's actions (R46, R50, R60): a command word runs its operation, and reads of one register agree. -/

namespace Sys2Proof.Machine

/-- Settles O2: a word that decodes is not rejected, and selects one operation only. -/
theorem stepRunsTheDecodedOperation : Obligations.StepRunsTheDecodedOperation := by
  intro s cw i rest pending decoded
  rcases step_command_word pending with ⟨j, selected, answer⟩ | ⟨_, rejected, -⟩
  · cases selected.symm.trans decoded
    exact answer
  · cases rejected.symm.trans decoded

/-- The read port does not see the host's list (R46). -/
theorem State.readPort_takeRead (s : State) (rest : List HostAction) (n : RegNum) :
    (s.takeRead rest).readPort n = s.readPort n := rfl

/-- The read port does not see what it answered last (R46). -/
theorem State.readPort_hostRead (s : State) (m n : RegNum) : (s.hostRead m).readPort n = s.readPort n := rfl

/-- A read takes itself from the list and answers what the read port holds, and does nothing else (R29, R46). -/
theorem step_read_reply {s : State} {n : RegNum} {rest : List HostAction} (h : s.pending = .read n :: rest) :
    step s = .next { s with pending := rest, reply := some (s.readPort n) } := by
  rw [step_read h, State.hostRead, State.readPort_takeRead]
  rfl

/-- Settles O14: the second read finds the read port as the first one found it. -/
theorem readsAreIdempotentAndChangeNothing : Obligations.ReadsAreIdempotentAndChangeNothing := by
  intro s rest n pending
  have same_value : ((s.takeRead (.read n :: rest)).hostRead n).readPort n = s.readPort n := by
    rw [State.readPort_hostRead, State.readPort_takeRead]
  refine ⟨s.readPort n, (s.takeRead (.read n :: rest)).hostRead n, step_read pending, rfl, ?_⟩
  rw [step_read_reply rfl, same_value]
  rfl

end Sys2Proof.Machine
end
